-- ==== Sys2Proof/Word.lean ====
section
/-! DEFINITION. The two widths the block works in (spec 00_scope.md R12). -/

namespace Sys2Proof

/-- `u8`: one sample, one buffer byte (R12, R131). -/
abbrev Byte := BitVec 8

/-- `u32`: a command word, or the value of a register access (R12, R100, R108). -/
abbrev Word := BitVec 32

end Sys2Proof
end

