-- ==== Sys2Proof/Syntax.lean ====
section
/-! DEFINITION. The commands of the block (30_encoding.md R101), the names of its operations, filters,
spaces and registers, and the steps a host can take (30_encoding.md R110, R111). -/

namespace Sys2Proof

/-- The block's whole instruction set: the four legal command words of R101, one constructor per row of the
opcode table. A command carries no operand field (R102), so a constructor has no argument. -/
inductive Instr where
  /-- `CLR`, acknowledge (R251). -/
  | clr
  /-- `ENC.AVG`, encode with averaged chroma (R170, R175). -/
  | encAvg
  /-- `ENC.DIR`, encode with direct chroma (R170, R175). -/
  | encDir
  /-- `DEC`, decode (R200). -/
  | dec
  deriving DecidableEq, Repr

/-- `H.OP` (R35): which operation was accepted. -/
inductive Op where
  | enc
  | dec
  deriving DecidableEq, Repr, Inhabited

/-- `FILT` (R101, R103): the chroma filter of `ENC`. -/
inductive Filt where
  | avg
  | dir
  deriving DecidableEq, Repr, Inhabited

/-- The two byte buffers (R33, R34, R60). -/
inductive Space where
  | src
  | dst
  deriving DecidableEq, Repr

/-- The ten register locations of the `REG` space (R21, R108). -/
inductive Reg where
  | cmd
  | status
  | ctrl
  | width
  | height
  | srcLen
  | dstLen
  | outW
  | outH
  | outPad
  deriving DecidableEq, Repr

/-- Who moves next while an operation is pending (R16): the host, or the engine with its `complete` step. -/
inductive Agent where
  | host
  | engine
  deriving DecidableEq, Repr

/-- One line of a host program (R110, R111). The first five are the atomic host steps of R255 to R258 and R320;
there is no constructor for an access the spec gives no meaning by its width or register offset (R65, R260).
`wait` and `dump` are the pseudo-instructions of R111 whose expansion depends on what is read; the other
pseudo-instructions are functions to lists of lines (Machine/HostProgram.lean). -/
inductive HostLine where
  /-- `RD <reg>` (R255). -/
  | rd (r : Reg)
  /-- `WR <reg>, v` (R256); on `CMD` it issues the command word `v` (R250). -/
  | wr (r : Reg) (v : Word)
  /-- `RDB SRC[off]` or `RDB DST[off]` (R257). -/
  | rdb (sp : Space) (off : Nat)
  /-- `WRB SRC[off], b` or `WRB DST[off], b` (R258). -/
  | wrb (sp : Space) (off : Nat) (b : Byte)
  /-- `RESET` (R320). -/
  | reset
  /-- `WAIT` (R111): repeat `RD STATUS` until bit 0 of the value read is 0. -/
  | wait
  /-- `DUMP DST` (R111): `RD DST_LEN` giving `n`, then `RDB DST[0]` to `RDB DST[n-1]`. -/
  | dump
  deriving DecidableEq, Repr

end Sys2Proof
end

