-- ==== Sys2Proof/Config.lean ====
section
/-! DEFINITION. What an instance of the block fixes (00_scope.md R7) and the values the spec leaves unspecified.
The free values are constants without a body: no proof can learn what they are, so what is proved holds for
every value (93_implementation_defined.md U3, U12, U13). -/

namespace Sys2Proof

/-- The open parameters of R7: the capacities of the two buffers. They are the same in every state of one
instance; State carries them so that a statement about every state is a statement about every instance.
The base addresses of R7 are read by no rule (U17) and left out. -/
structure Params where
  /-- `SRC_BYTES`. -/
  srcBytes : Nat
  /-- `DST_BYTES`. -/
  dstBytes : Nat
  deriving DecidableEq, Repr

/-- The capacities State.reset has. DESIGN CHOICE (notes/assumptions/1.md): R7 leaves them open; 4096 is what
95_test_vectors.md 2.11 uses unless it says otherwise. Unsafe for a claim about State.reset itself. -/
def Config.params : Params := { srcBytes := 4096, dstBytes := 4096 }

/-- The byte that address `a` of a buffer holds after the `epoch`-th reset until something is stored there
(R40, R41, U12): any value, stable until written. Free value (notes/assumptions/2.md). -/
opaque Config.resetByte (epoch : Nat) (sp : Space) (a : Nat) : Byte

/-- What a host buffer read returns while `BUSY = 1` (R257, U3): any value, chosen afresh at each read, so the
argument is the count of free values used so far. Free value (notes/assumptions/3.md). -/
opaque Config.busyReadByte (n : Nat) : Byte

/-- `H.OP` when no operation is pending (R35, U13). Free value (notes/assumptions/4.md). -/
opaque Config.deadOp (n : Nat) : Op

/-- `H.FILT` when no operation is pending (R35, U13). Free value (notes/assumptions/4.md). -/
opaque Config.deadFilt (n : Nat) : Filt

/-- `H.ROW` when no operation is pending (R36, U13). Free value (notes/assumptions/4.md). -/
opaque Config.deadRow (n : Nat) : BitVec 31

/-- `H.COL` when no operation is pending (R36, U13). Free value (notes/assumptions/4.md). -/
opaque Config.deadCol (n : Nat) : BitVec 31

/-- `H.U_LAST` when no operation is pending (R37, U13). Free value (notes/assumptions/4.md). -/
opaque Config.deadULast (n : Nat) : Byte

/-- `H.V_LAST` when no operation is pending (R37, U13). Free value (notes/assumptions/4.md). -/
opaque Config.deadVLast (n : Nat) : Byte

end Sys2Proof
end

