-- ==== Sys2Proof/WellFormed.lean ====
section
/-! DEFINITION. The checks on terms: the bounds of R7 on an instance's parameters, and which host lines are
steps of that instance (R65, R257, R258). An `Instr` has no field to check (R102): every one is well formed. -/

namespace Sys2Proof

/-- R7: each capacity is in [54, 2^32 − 1]. -/
abbrev Params.legal (p : Params) : Prop :=
  54 ≤ p.srcBytes ∧ p.srcBytes < 2 ^ 32 ∧ 54 ≤ p.dstBytes ∧ p.dstBytes < 2 ^ 32

/-- The capacity of a buffer (R33, R34). -/
def Params.capacity (p : Params) : Space → Nat
  | .src => p.srcBytes
  | .dst => p.dstBytes

/-- The host lines that are steps of an instance with parameters `p`: a byte access lies below the capacity of
its buffer (R257, R258, R260, U7). -/
def HostLine.wf (p : Params) : HostLine → Bool
  | .rd _ => true
  | .wr _ _ => true
  | .rdb sp off => decide (off < p.capacity sp)
  | .wrb sp off _ => decide (off < p.capacity sp)
  | .reset => true
  | .wait => true
  | .dump => true

end Sys2Proof
end

