-- ==== Sys2Proof/Decode.lean ====
section
/-! DEFINITION. The command word (30_encoding.md R100 to R106): the decoder, total on all 2^32 words and
rejecting by name, and the encoder; and the register map (R108). -/

namespace Sys2Proof

/-- Why a command word is illegal (R104). All three are reported alike, as `IllegalCommand` (R253, R287). -/
inductive IllegalWord where
  /-- A bit of 7:4 or 31:9 is 1. -/
  | reservedBits
  /-- `OP` is in 3 to 15. -/
  | undefinedOp
  /-- `FILT` is 1 and `OP` is not 1. -/
  | filtWithoutEnc
  deriving DecidableEq, Repr

/-- Field `OP`, bits 3:0 (R101). -/
def opField (w : Word) : BitVec 4 := w.extractLsb' 0 4

/-- Field `FILT`, bit 8 (R101). -/
def filtField (w : Word) : BitVec 1 := w.extractLsb' 8 1

/-- Bits 7:4, which must be 0 (R101). -/
def reservedLow (w : Word) : BitVec 4 := w.extractLsb' 4 4

/-- Bits 31:9, which must be 0 (R101). -/
def reservedHigh (w : Word) : BitVec 23 := w.extractLsb' 9 23

/-- R101 and R104: the command a word stands for, or why it stands for none. -/
def decode (w : Word) : Except IllegalWord Instr :=
  if reservedLow w ≠ 0 ∨ reservedHigh w ≠ 0 then .error .reservedBits
  else if opField w = 0 then (if filtField w = 0 then .ok .clr else .error .filtWithoutEnc)
  else if opField w = 1 then (if filtField w = 0 then .ok .encAvg else .ok .encDir)
  else if opField w = 2 then (if filtField w = 0 then .ok .dec else .error .filtWithoutEnc)
  else .error .undefinedOp

/-- The value of field `OP` of each command (R101). -/
def opCode : Instr → BitVec 4
  | .clr => 0
  | .encAvg => 1
  | .encDir => 1
  | .dec => 2

/-- The value of field `FILT` of each command (R101). -/
def filtCode : Instr → BitVec 1
  | .clr => 0
  | .encAvg => 0
  | .encDir => 1
  | .dec => 0

/-- The command word of a command (R101): 31:9 zero, `FILT`, 7:4 zero, `OP`. -/
def encode (i : Instr) : Word := 0#23 ++ filtCode i ++ 0#4 ++ opCode i

/-- The decoder on a word as the opcode table numbers its bits; the bits above `nbits` are 0. A command is one
32-bit word in every case (R100, R106). -/
def decodeTableWord (nbits w : Nat) : Option Instr :=
  if nbits ≤ 32 then
    match decode (BitVec.ofNat 32 (w % 2 ^ nbits)) with
    | .ok i => some i
    | .error _ => none
  else none

/-- The offset of a register in the `REG` space (R108). -/
def regOffset : Reg → Nat
  | .cmd => 0x00
  | .status => 0x04
  | .ctrl => 0x08
  | .width => 0x0C
  | .height => 0x10
  | .srcLen => 0x14
  | .dstLen => 0x18
  | .outW => 0x1C
  | .outH => 0x20
  | .outPad => 0x24

/-- The register at an offset of the `REG` space; no other offset has one (R21, R61, R108, U6). -/
def regAt (off : Nat) : Option Reg :=
  match off with
  | 0x00 => some .cmd
  | 0x04 => some .status
  | 0x08 => some .ctrl
  | 0x0C => some .width
  | 0x10 => some .height
  | 0x14 => some .srcLen
  | 0x18 => some .dstLen
  | 0x1C => some .outW
  | 0x20 => some .outH
  | 0x24 => some .outPad
  | _ => none

end Sys2Proof
end

