-- ==== Sys2Proof/Machine/State.lean ====
section
/-! DEFINITION. The state of the block as 10_state.md R20 lists it, the parameters of its instance, and the
model's own fields; the state after reset (R40); why a step can stop. -/

namespace Sys2Proof.Machine

/-- A buffer: the bytes stored in it since the last reset, by address. An address with no entry has not been
written since that reset and reads as the free value `Config.resetByte` (R41). -/
abbrev Memory := List Host.Cell

/-- The canonical form of a buffer: addresses strictly rising. No entry can equal what an unlisted address
holds as data, since an unlisted address holds no stored value (notes/assumptions/2.md). -/
abbrev Memory.wf (m : Memory) : Prop := m.Pairwise (fun x y => x.1 < y.1)

/-- `REG.STATUS` (R23): the fields a read assembles. -/
structure Status where
  busy : Bool
  done : Bool
  err : Bool
  code : BitVec 4
  deriving DecidableEq, Repr

/-- The hidden registers `H.*` (R35 to R37). -/
structure Hidden where
  /-- `H.OP`. -/
  op : Op
  /-- `H.FILT`. -/
  filt : Filt
  /-- `H.ROW`. -/
  row : BitVec 31
  /-- `H.COL`. -/
  col : BitVec 31
  /-- `H.U_LAST`. -/
  uLast : Byte
  /-- `H.V_LAST`. -/
  vLast : Byte
  deriving DecidableEq, Repr

/-- The error kinds an operation or a command write can raise (R15, R280). `IOError` (code 4) belongs to
software outside the block and is never raised (R285). -/
inductive ErrorKind where
  /-- R281. -/
  | unsupportedFormat
  /-- R282. -/
  | invalidDimensions
  /-- R283, R284. -/
  | sizeMismatch
  /-- R286. -/
  | capacity
  /-- R287. -/
  | illegalCommand
  deriving DecidableEq, Repr

/-- The whole state: R20's pieces, then the instance's parameters and the model's own fields. -/
structure State where
  /-- `REG.STATUS` (R23). -/
  status : Status
  /-- `REG.CTRL.IE` (R25). -/
  ie : Bool
  /-- `REG.WIDTH` (R26). -/
  width : Word
  /-- `REG.HEIGHT` (R27). -/
  height : Word
  /-- `REG.SRC_LEN` (R28). -/
  srcLen : Word
  /-- `REG.DST_LEN` (R29). -/
  dstLen : Word
  /-- `REG.OUT_W` (R30). -/
  outW : Word
  /-- `REG.OUT_H` (R31). -/
  outH : Word
  /-- `REG.OUT_PAD`, bits 1:0 (R32). -/
  outPad : BitVec 2
  /-- The source buffer (R33). -/
  src : Memory
  /-- The destination buffer (R34). -/
  dst : Memory
  /-- The hidden registers (R35 to R37). -/
  h : Hidden
  /-- The parameters of the instance (R7); no step changes them. -/
  params : Params
  /-- Model's own: how many resets there have been, which selects the unspecified buffer bytes. -/
  resets : Nat
  /-- Model's own: how many free values have been used. -/
  freeUses : Nat
  /-- Model's own: the lines the host still has to run (R16, R110). -/
  host : List HostLine
  /-- Model's own: who moves at each coming step while `BUSY = 1`; past its end the engine moves (R330). -/
  sched : List Agent
  /-- Model's own: the values the host's reads returned, newest first (R110). -/
  results : List Word
  deriving DecidableEq, Repr

/-- Why the machine stops with a fault. -/
inductive Fault where
  /-- A host byte access at or beyond the capacity of its buffer: the spec says there is no such byte and gives
  the access no meaning (R65, R260, U7). Raised by `runLine` on `rdb` and `wrb`. Safe: the model goes on in
  fewer cases than a platform might. -/
  | noSuchByte (sp : Space) (off : Nat)
  deriving DecidableEq, Repr

/-- Why the machine refuses a step. -/
inductive Refusal where
  /-- An instruction that has no meaning yet, by its mnemonic. Raised by no arm of `exec`. Safe. -/
  | notModelled (mnemonic : String)
  deriving DecidableEq, Repr

/-- `STATUS` reading 0x000 (R40). -/
def Status.idle : Status := { busy := false, done := false, err := false, code := 0 }

/-- The hidden registers of a machine right after reset. The spec states no value (R40): DESIGN CHOICE
(notes/assumptions/5.md), unsafe; nothing reads them before an operation's start writes them. -/
def Hidden.reset : Hidden := { op := .enc, filt := .avg, row := 0, col := 0, uLast := 0, vLast := 0 }

/-- The machine right after reset (R40) for an instance with parameters `p`: no host line is pending and no
buffer byte is stored, so each reads as an arbitrary byte (R41). -/
def State.initial (p : Params) : State :=
  { status := .idle, ie := false, width := 0, height := 0, srcLen := 0, dstLen := 0, outW := 0, outH := 0,
    outPad := 0, src := [], dst := [], h := .reset, params := p, resets := 0, freeUses := 0, host := [],
    sched := [], results := [] }

/-- The machine right after reset (R40), for the instance of Config.params. -/
def State.reset : State := State.initial Config.params

end Sys2Proof.Machine
end

