-- ==== Sys2Proof/Machine/Flags.lean ====
section
/-! DEFINITION. The flags: the codes of the error kinds (R280), the four values `STATUS` takes (R24), how a
read assembles it (R255), and the interrupt wire (R39, R293). No arithmetic sets a flag (R23). -/

namespace Sys2Proof.Machine

/-- `code(K)`, the table of R280. -/
def errorCode : ErrorKind → BitVec 4
  | .unsupportedFormat => 1
  | .invalidDimensions => 2
  | .sizeMismatch => 3
  | .capacity => 5
  | .illegalCommand => 6

/-- `BUSY=1, DONE=0, ERR=0, CODE=0` (R250). -/
def statusBusy : Status := { busy := true, done := false, err := false, code := 0 }

/-- `BUSY=0, DONE=1, ERR=0, CODE=0` (R178, R207, R254). -/
def statusSuccess : Status := { busy := false, done := true, err := false, code := 0 }

/-- `BUSY=0, DONE=1, ERR=1, CODE=code(K)` (R254, R290). -/
def statusError (k : ErrorKind) : Status := { busy := false, done := true, err := true, code := errorCode k }

/-- The word a read of `STATUS` returns (R255): 20 zero bits, `CODE`, 5 zero bits, `ERR`, `DONE`, `BUSY`. -/
def statusWord (st : Status) : Word :=
  0#20 ++ st.code ++ 0#5 ++ BitVec.ofBool st.err ++ BitVec.ofBool st.done ++ BitVec.ofBool st.busy

/-- The interrupt output: `CTRL.IE` and `STATUS.DONE` (R39, R293). -/
def irq (s : State) : Bool := s.ie && s.status.done

end Sys2Proof.Machine
end

