-- ==== Sys2Proof/Machine/Ops.lean ====
section
/-! DEFINITION. The shared operations: buffer bytes and the memory primitives of R14, the acceptance of a
command (R250, R252), the start of an operation (R250), its end with an error (R290, the block's trap entry)
or with success (R178, R207), the acknowledge that leaves it (R251, R295), and reset (R320). -/

namespace Sys2Proof.Machine

/-- The byte stored at an address since the last reset, if one was. -/
def lookup : Memory → Nat → Option Byte
  | [], _ => none
  | (k, b) :: m, a => if k = a then some b else lookup m a

/-- Store one byte, keeping the canonical form. -/
def store : Memory → Nat → Byte → Memory
  | [], a, v => [(a, v)]
  | (k, b) :: m, a, v =>
    if a < k then (a, v) :: (k, b) :: m
    else if a = k then (k, v) :: m
    else (k, b) :: store m a v

/-- `MemWrite(space, a, n, v)` on a buffer's contents: `n` bytes, least significant first (R14, R62). -/
def storeLE (m : Memory) (a : Nat) : (n : Nat) → (v : Nat) → Memory
  | 0, _ => m
  | n + 1, v => storeLE (store m a (BitVec.ofNat 8 v)) (a + 1) n (v / 256)

/-- `MemRead(space, a, n)` through a reader of single bytes: least significant first (R14, R62). -/
def readLE (rd : Nat → Byte) (a : Nat) : (n : Nat) → Nat
  | 0 => 0
  | n + 1 => (rd a).toNat + 256 * readLE rd (a + 1) n

/-- The stored contents of a buffer. -/
def State.buffer (s : State) : Space → Memory
  | .src => s.src
  | .dst => s.dst

/-- The byte a buffer holds at an address: the one stored there, or else the unspecified byte it has held since
the last reset (R40, R41). -/
def State.byteAt (s : State) (sp : Space) (a : Nat) : Byte :=
  match lookup (s.buffer sp) a with
  | some b => b
  | none => Config.resetByte s.resets sp a

/-- Store one byte in a buffer. -/
def State.storeByte (s : State) (sp : Space) (a : Nat) (b : Byte) : State :=
  match sp with
  | .src => { s with src := store s.src a b }
  | .dst => { s with dst := store s.dst a b }

/-- The hidden registers while no operation is pending: unspecified (R35 to R37, U13). -/
def deadHidden (n : Nat) : Hidden :=
  { op := Config.deadOp n, filt := Config.deadFilt n, row := Config.deadRow n, col := Config.deadCol n,
    uLast := Config.deadULast n, vLast := Config.deadVLast n }

/-- What follows an operation for the hidden registers: they are dead (R254), each holding a free value. -/
def State.dropHidden (s : State) : State :=
  { s with h := deadHidden s.freeUses, freeUses := s.freeUses + 1 }

/-- A command written to `CMD` takes effect only while `BUSY = 0`; else it is discarded whole (R105, R252). -/
def State.whenIdle (s : State) (f : State → State) : State := if s.status.busy then s else f s

/-- The four result registers, written together (R178, R207, R250, R253). -/
def State.setResults (s : State) (len w hgt : Word) (pad : BitVec 2) : State :=
  { s with dstLen := len, outW := w, outH := hgt, outPad := pad }

/-- The start of an operation (R250): the command is latched, the previous report and results are cleared, and
`BUSY` is set. -/
def State.startOperation (s : State) (op : Op) (filt : Filt) : State :=
  { s.setResults 0 0 0 0 with h := { s.h with op := op, filt := filt }, status := statusBusy }

/-- An error is reported (R253, R254, R290), the block's trap entry: the status says which kind, the result
registers are 0, and nothing else changes. -/
def State.reportError (s : State) (k : ErrorKind) : State :=
  { s.setResults 0 0 0 0 with status := statusError k }

/-- The acknowledge (R251, R295), the block's trap return: the report is cleared and nothing else changes. -/
def State.acknowledge (s : State) : State := { s with status := .idle }

/-- What a successful operation produced: the destination buffer, the length of the output in it, and the
picture's dimensions and row padding (R178, R207). -/
structure Output where
  dst : Memory
  len : Nat
  width : Nat
  height : Nat
  pad : Nat
  deriving DecidableEq, Repr

/-- A successful completion (R178, R207, R254): the output and the result registers are written. -/
def State.reportSuccess (s : State) (o : Output) : State :=
  { s.setResults (BitVec.ofNat 32 o.len) (BitVec.ofNat 32 o.width) (BitVec.ofNat 32 o.height)
      (BitVec.ofNat 2 o.pad) with
    dst := o.dst, status := statusSuccess }

/-- The end of an operation (R254): its error or its success is reported, and the hidden registers are dead. -/
def State.finish (s : State) (r : Except ErrorKind Output) : State :=
  match r with
  | .error k => (s.reportError k).dropHidden
  | .ok o => (s.reportSuccess o).dropHidden

/-- `RESET` (R320, R321), in any state: every register at its reset value, every buffer byte and every hidden
register unspecified. What the host has still to do and has already read is outside the block and stays. -/
def State.resetBlock (s : State) : State :=
  State.dropHidden
    { s with status := .idle, ie := false, width := 0, height := 0, srcLen := 0, dstLen := 0, outW := 0,
             outH := 0, outPad := 0, src := [], dst := [], resets := s.resets + 1 }

end Sys2Proof.Machine
end

