-- ==== Sys2Proof/Machine/Sizes.lean ====
section
/-! DEFINITION. The size arithmetic (41_container_parser.md R150), over natural numbers with no wrap (R9, R11),
and where a byte of each layout stands (20_memory.md R68, R69). -/

namespace Sys2Proof.Machine

/-- `HDR_LEN`, the payload offset (R8, R156). -/
def hdrLen : Nat := 54

/-- `rowPadding` (R150). -/
def rowPadding (width : Nat) : Nat := (4 - (width * 3) % 4) % 4

/-- `stride` (R150). -/
def stride (width : Nat) : Nat := width * 3 + rowPadding width

/-- `payloadLen` (R150). -/
def payloadLen (width height : Nat) : Nat := stride width * height

/-- `containerLen` (R150). -/
def containerLen (width height : Nat) : Nat := hdrLen + payloadLen width height

/-- `planarLen` (R150). -/
def planarLen (width height : Nat) : Nat := width * height * 2

/-- The container offset of the first byte (B) of the pixel in disk row `y`, column `x` (R68, R173, R205). -/
def pixelOffset (width y x : Nat) : Nat := hdrLen + y * stride width + x * 3

/-- The container offset of the `k`-th padding byte of disk row `y` (R68, R206). -/
def padOffset (width y k : Nat) : Nat := hdrLen + y * stride width + width * 3 + k

/-- The planar offset of the Y sample of the pixel in picture row `r`, column `x` (R69). -/
def yOffset (width r x : Nat) : Nat := r * width + x

/-- The planar offset of the U sample of the pixel pair `c` of picture row `r` (R69, R175). -/
def uOffset (width height r c : Nat) : Nat := width * height + (r * (width / 2) + c)

/-- The planar offset of the V sample of the pixel pair `c` of picture row `r` (R69, R175). -/
def vOffset (width height r c : Nat) : Nat := width * height + width * height / 2 + (r * (width / 2) + c)

end Sys2Proof.Machine
end

