-- ==== Sys2Proof/Machine/Operands.lean ====
section
/-! DEFINITION. The operands of the commands: the operand registers as `DEC` and `ENC` read them (R102), and the
fields of a container header as `ENC` reads them (20_memory.md R67, R152). A command word carries no operand. -/

namespace Sys2Proof.Machine

/-- `sext_32` of a 32-bit pattern given as a number (R12). -/
def sext32 (v : Nat) : Int := (BitVec.ofNat 32 v).toInt

/-- `WIDTH` read as `i32` (R26, R102). -/
def State.widthOperand (s : State) : Int := s.width.toInt

/-- `HEIGHT` read as `i32` (R27, R102). -/
def State.heightOperand (s : State) : Int := s.height.toInt

/-- `SRC_LEN` read as `u32` (R28, R102). -/
def State.srcLenOperand (s : State) : Nat := s.srcLen.toNat

/-- The bytes of `SRC` as the engine reads them (R14, R33). -/
def State.srcReader (s : State) : Nat → Byte := s.byteAt .src

/-- Header field `signature`: its two bytes in file order (R67, R153). -/
def headerSignature (rd : Nat → Byte) : Byte × Byte := (rd 0, rd 1)

/-- Header field `width`, `i32` at offset 18 (R67, R151, R152). -/
def headerWidth (rd : Nat → Byte) : Int := sext32 (readLE rd 18 4)

/-- Header field `height`, `i32` at offset 22 (R67, R151, R152). -/
def headerHeight (rd : Nat → Byte) : Int := sext32 (readLE rd 22 4)

/-- Header field `bitsPerPixel`, `u16` at offset 28 (R67, R151). -/
def headerBitsPerPixel (rd : Nat → Byte) : Nat := readLE rd 28 2

/-- Header field `compression`, `u32` at offset 30 (R67, R151). -/
def headerCompression (rd : Nat → Byte) : Nat := readLE rd 30 4

/-- A picture's dimensions, as `PARSE` returns them (R151, R157). -/
structure Dims where
  width : Nat
  height : Nat
  pad : Nat
  deriving DecidableEq, Repr

/-- The dimensions of a width and a height already found positive (R157, R201). -/
def dimsOf (width height : Int) : Dims :=
  { width := width.toNat, height := height.toNat, pad := rowPadding width.toNat }

/-- The condition under which a width and height are refused, the same in both directions (R154, R201, R282). -/
abbrev badDimensions (width height : Int) : Prop := width ≤ 0 ∨ height ≤ 0 ∨ width % 2 ≠ 0

end Sys2Proof.Machine
end

