-- ==== Sys2Proof/Machine/Container.lean ====
section
/-! DEFINITION. The container header: `PARSE` (41_container_parser.md R151 to R157) and `SERIALIZE_HEADER`
(44_container_serializer.md R230, R231). -/

namespace Sys2Proof.Machine

/-- `SIG0`, `SIG1` (R8, R153): the bytes "BM" in file order (90_conflicts.md C2). -/
def signature : Byte × Byte := (0x42, 0x4D)

/-- The format checks of R153 fail. The other header fields are not read (R155). -/
abbrev badFormat (rd : Nat → Byte) : Prop :=
  headerSignature rd ≠ signature ∨ headerBitsPerPixel rd ≠ 24 ∨ headerCompression rd ≠ 0

/-- `PARSE` (R151): format before dimensions (R154, R289). -/
def parse (rd : Nat → Byte) : Except ErrorKind Dims :=
  if badFormat rd then .error .unsupportedFormat
  else if badDimensions (headerWidth rd) (headerHeight rd) then .error .invalidDimensions
  else .ok (dimsOf (headerWidth rd) (headerHeight rd))

/-- One header field: offset, length in bytes, value. -/
abbrev Field := Nat × Nat × Nat

/-- The header fields `DEC` writes, in the order of R231; there is no footer (R230). -/
def headerFields (width height : Nat) : List Field :=
  [(0, 1, 0x42), (1, 1, 0x4D),
   (2, 4, containerLen width height),
   (6, 4, 0),
   (10, 4, hdrLen),
   (14, 4, 40),
   (18, 4, width),
   (22, 4, height),
   (26, 2, 1),
   (28, 2, 24),
   (30, 4, 0),
   (34, 4, payloadLen width height),
   (38, 4, 0),
   (42, 4, 0),
   (46, 4, 0),
   (50, 4, 0)]

/-- `SERIALIZE_HEADER` (R231) into the destination buffer's contents. -/
def serializeHeader (dst : Memory) (width height : Nat) : Memory :=
  (headerFields width height).foldl (fun m f => storeLE m f.1 f.2.1 f.2.2) dst

end Sys2Proof.Machine
end

