-- ==== Sys2Proof/Machine/Transform.lean ====
section
/-! DEFINITION. The colourspace transform (40_colorspace_transform.md R130 to R138): pure functions on one
pixel, over exact integers with a floor shift. -/

namespace Sys2Proof.Machine

/-- A pixel of the packed format (R68, R131). -/
structure Rgb where
  r : Byte
  g : Byte
  b : Byte
  deriving DecidableEq, Repr

/-- A pixel of the planar format (R69, R131). -/
structure Yuv where
  y : Byte
  u : Byte
  v : Byte
  deriving DecidableEq, Repr

/-- `a >> n` on an integer of either sign: the greatest integer not above `a / 2^n` (R10, R136). -/
def floorShift (a : Int) (n : Nat) : Int := a / (2 ^ n : Int)

/-- `clamp8` (R130). -/
def clamp8 (x : Int) : Int := if x < 0 then 0 else if 255 < x then 255 else x

/-- A clamped value stored as a `u8` (R131). -/
def sample (x : Int) : Byte := BitVec.ofInt 8 (clamp8 x)

/-- The value of a sample in a formula (R131). -/
def value (b : Byte) : Int := (b.toNat : Int)

/-- The Y sum of `FWD` before its shift (R132). -/
def ySum (p : Rgb) : Int := 612 * value p.r + 1202 * value p.g + 233 * value p.b

/-- The U sum of `FWD` before its shift (R132). -/
def uSum (p : Rgb) : Int := -346 * value p.r - 678 * value p.g + 1024 * value p.b

/-- The V sum of `FWD` before its shift (R132). -/
def vSum (p : Rgb) : Int := 1024 * value p.r - 857 * value p.g - 167 * value p.b

/-- The forward transform `FWD` (R132). -/
def fwd (p : Rgb) : Yuv :=
  { y := sample (floorShift (ySum p) 11)
    u := sample (floorShift (uSum p) 11 + 128)
    v := sample (floorShift (vSum p) 11 + 128) }

/-- The R sum of `INV` before its shift (R134). -/
def rSum (q : Yuv) : Int := 2048 * value q.y + 2871 * (value q.v - 128)

/-- The G sum of `INV` before its shift (R134). -/
def gSum (q : Yuv) : Int := 2048 * value q.y - 704 * (value q.u - 128) - 1463 * (value q.v - 128)

/-- The B sum of `INV` before its shift (R134). -/
def bSum (q : Yuv) : Int := 2048 * value q.y + 3629 * (value q.u - 128)

/-- The inverse transform `INV` (R134). -/
def inv (q : Yuv) : Rgb :=
  { r := sample (floorShift (rSum q) 11)
    g := sample (floorShift (gSum q) 11)
    b := sample (floorShift (bSum q) 11) }

end Sys2Proof.Machine
end

