-- ==== Sys2Proof/Machine/Encode.lean ====
section
/-! DEFINITION. `ENC.AVG` and `ENC.DIR` (42_encode_pack_to_planar.md R170 to R180): the checks, the walk over
the packed picture, and what each command does when it is issued and when the engine completes it. -/

namespace Sys2Proof.Machine

/-- The checks E1 to E4 of R171, in their order; the first that fails names the error (R289). -/
def encChecks (p : Params) (srcLen : Nat) (rd : Nat → Byte) : Except ErrorKind Dims :=
  if srcLen < hdrLen then .error .sizeMismatch
  else
    match parse rd with
    | .error k => .error k
    | .ok d =>
      if srcLen < containerLen d.width d.height then .error .sizeMismatch
      else if p.srcBytes < containerLen d.width d.height ∨ p.dstBytes < planarLen d.width d.height then
        .error .capacity
      else .ok d

/-- What the walk carries from pixel to pixel: the output so far, and the walker position and chroma history of
the hidden registers (R36, R37). -/
structure Walk where
  dst : Memory
  h : Hidden
  deriving DecidableEq, Repr

/-- Pixel fetch (R173): B, G, R at rising offsets. -/
def packedPixel (rd : Nat → Byte) (width y x : Nat) : Rgb :=
  { b := rd (pixelOffset width y x), g := rd (pixelOffset width y x + 1), r := rd (pixelOffset width y x + 2) }

/-- The halving of the averaged filter (R175): the sum of two samples shifted right by one. -/
def average (a b : Byte) : Byte := BitVec.ofNat 8 ((a.toNat + b.toNat) / 2)

/-- One chroma sample of the pair at the even column `x` (R175): the current pixel's under `DIR` and at a row's
first column, else its average with the previous column's. -/
def chromaSample (filt : Filt) (x : Nat) (now last : Byte) : Byte :=
  if filt = .dir ∨ x = 0 then now else average now last

/-- One pixel of the walk, at disk row `y` and column `x` (R173 to R176): the Y sample, at an even column the U
and V samples, then the chroma history. -/
def encPixel (rd : Nat → Byte) (filt : Filt) (width height y x : Nat) (w : Walk) : Walk :=
  let q := fwd (packedPixel rd width y x)
  let r := height - 1 - y
  let luma := store w.dst (yOffset width r x) q.y
  let out :=
    if x % 2 = 0 then
      store (store luma (uOffset width height r (x / 2)) (chromaSample filt x q.u w.h.uLast))
        (vOffset width height r (x / 2)) (chromaSample filt x q.v w.h.vLast)
    else luma
  { dst := out
    h := { w.h with row := BitVec.ofNat 31 y, col := BitVec.ofNat 31 x, uLast := q.u, vLast := q.v } }

/-- One disk row of the walk (R172): columns from 0 up; the row's padding is never read (R177). -/
def encRow (rd : Nat → Byte) (filt : Filt) (width height y : Nat) (w : Walk) : Walk :=
  (List.range width).foldl (fun w x => encPixel rd filt width height y x w) w

/-- The whole walk (R172): disk rows from `height − 1` down to 0. -/
def encPicture (rd : Nat → Byte) (filt : Filt) (width height : Nat) (w : Walk) : Walk :=
  (List.range height).foldl (fun w r => encRow rd filt width height (height - 1 - r) w) w

/-- `ENC()` (R180) with a given filter, on the operands as they stand in the state. -/
def runEnc (filt : Filt) (s : State) : Except ErrorKind Output :=
  match encChecks s.params s.srcLenOperand s.srcReader with
  | .error k => .error k
  | .ok d =>
    .ok { dst := (encPicture s.srcReader filt d.width d.height { dst := s.dst, h := s.h }).dst
          len := planarLen d.width d.height
          width := d.width
          height := d.height
          pad := d.pad }

/-- The engine's step for a pending `ENC.AVG` (R170, R254). -/
def completeEncAvg (s : State) : State := s.finish (runEnc .avg s)

/-- The engine's step for a pending `ENC.DIR` (R170, R254). -/
def completeEncDir (s : State) : State := s.finish (runEnc .dir s)

/-- The issue of `ENC.AVG` (R170, R250, R252): the operation starts; `completeEncAvg` is the engine's step that
carries it out. -/
def execEncAvg (s : State) : Host.Outcome State Fault Refusal :=
  .next (s.whenIdle (fun t => t.startOperation .enc .avg))

/-- The issue of `ENC.DIR` (R170, R250, R252): the operation starts; `completeEncDir` is the engine's step that
carries it out. -/
def execEncDir (s : State) : Host.Outcome State Fault Refusal :=
  .next (s.whenIdle (fun t => t.startOperation .enc .dir))

end Sys2Proof.Machine
end

