-- ==== Sys2Proof/Machine/DecodePicture.lean ====
section
/-! DEFINITION. `DEC` (43_decode_planar_to_pack.md R200 to R209): the checks, the walk over the planar picture,
and what the command does when it is issued and when the engine completes it. -/

namespace Sys2Proof.Machine

/-- The checks D1 to D3 of R201, in their order; the first that fails names the error (R289). -/
def decChecks (p : Params) (srcLen : Nat) (width height : Int) : Except ErrorKind Dims :=
  if badDimensions width height then .error .invalidDimensions
  else
    let d := dimsOf width height
    if srcLen ≠ planarLen d.width d.height then .error .sizeMismatch
    else if p.srcBytes < planarLen d.width d.height ∨ p.dstBytes < containerLen d.width d.height then
      .error .capacity
    else .ok d

/-- The index of a pixel's chroma sample within its plane (R204), by flattened pixel position. -/
def chromaIndex (width i j : Nat) : Nat := (i * width + j) / 2

/-- Sample fetch and chroma upsampling by replication (R204, 90_conflicts.md C6). -/
def planarPixel (rd : Nat → Byte) (width height i j : Nat) : Yuv :=
  { y := rd (yOffset width i j)
    u := rd (width * height + chromaIndex width i j)
    v := rd (width * height + width * height / 2 + chromaIndex width i j) }

/-- Store a packed pixel (R205): B, G, R at rising offsets. -/
def storePixel (m : Memory) (off : Nat) (p : Rgb) : Memory :=
  store (store (store m off p.b) (off + 1) p.g) (off + 2) p.r

/-- One pixel of the walk, at planar row `i` and column `j` (R203 to R205). -/
def decPixel (rd : Nat → Byte) (width height i j : Nat) (w : Walk) : Walk :=
  { dst := storePixel w.dst (pixelOffset width (height - 1 - i) j) (inv (planarPixel rd width height i j))
    h := { w.h with row := BitVec.ofNat 31 i, col := BitVec.ofNat 31 j } }

/-- `PAD_BYTE` (R8, R206). -/
def padByte : Byte := 0xFF

/-- The padding bytes of disk row `y` (R206). -/
def storePadding (m : Memory) (width y : Nat) : Memory :=
  (List.range (rowPadding width)).foldl (fun m k => store m (padOffset width y k) padByte) m

/-- One planar row of the walk (R203): columns from 0 up, then the padding of the disk row it lands in. -/
def decRow (rd : Nat → Byte) (width height i : Nat) (w : Walk) : Walk :=
  let w' := (List.range width).foldl (fun w j => decPixel rd width height i j w) w
  { w' with dst := storePadding w'.dst width (height - 1 - i) }

/-- The whole walk (R203): planar rows from 0 up. -/
def decPicture (rd : Nat → Byte) (width height : Nat) (w : Walk) : Walk :=
  (List.range height).foldl (fun w i => decRow rd width height i w) w

/-- `DEC()` (R208), on the operands as they stand in the state. -/
def runDec (s : State) : Except ErrorKind Output :=
  match decChecks s.params s.srcLenOperand s.widthOperand s.heightOperand with
  | .error k => .error k
  | .ok d =>
    .ok { dst := (decPicture s.srcReader d.width d.height
                    { dst := serializeHeader s.dst d.width d.height, h := s.h }).dst
          len := containerLen d.width d.height
          width := d.width
          height := d.height
          pad := d.pad }

/-- The engine's step for a pending `DEC` (R200, R254). -/
def completeDec (s : State) : State := s.finish (runDec s)

/-- The issue of `DEC` (R200, R250, R252): the operation starts; `completeDec` is the engine's step that carries
it out. `H.FILT` takes the word's `FILT`, which is 0 (R101). -/
def execDec (s : State) : Host.Outcome State Fault Refusal :=
  .next (s.whenIdle (fun t => t.startOperation .dec .avg))

end Sys2Proof.Machine
end

