-- ==== Sys2Proof/Machine/Control.lean ====
section
/-! DEFINITION. `CLR` and the engine's `complete` step (45_control_and_host_access.md R251, R254). -/

namespace Sys2Proof.Machine

/-- `CLR` (R251, R252). -/
def execClr (s : State) : Host.Outcome State Fault Refusal :=
  .next (s.whenIdle State.acknowledge)

/-- `complete` (R254): run the pending operation to its end, as one atomic step (R16). Enabled when `BUSY = 1`;
`step` takes it only then. -/
def complete (s : State) : State :=
  match s.h.op, s.h.filt with
  | .enc, .avg => completeEncAvg s
  | .enc, .dir => completeEncDir s
  | .dec, _ => completeDec s

end Sys2Proof.Machine
end

