-- ==== Sys2Proof/Machine/Dispatch.lean ====
section
/-! DEFINITION. The meaning of each command: what its issue does (R250 to R252). The engine's step that carries
out an accepted `ENC` or `DEC` is `complete` (R254). -/

namespace Sys2Proof.Machine

def exec (i : Instr) (s : State) : Host.Outcome State Fault Refusal :=
  match i with
  | .clr => Sys2Proof.Machine.execClr s
  | .encAvg => Sys2Proof.Machine.execEncAvg s
  | .encDir => Sys2Proof.Machine.execEncDir s
  | .dec => Sys2Proof.Machine.execDec s

end Sys2Proof.Machine
end

