-- ==== Sys2Proof/Machine/HostProgram.lean ====
section
/-! DEFINITION. The lines of a host program that are only another spelling (30_encoding.md R110, R111): the
command mnemonics, `LOAD` and `DIMS`, each as the host lines it expands to. `WAIT` and `DUMP` depend on what is
read and are lines of their own (Syntax.lean). -/

namespace Sys2Proof.Machine

/-- A command mnemonic as a line: `WR CMD` with its word (R110). -/
def commandLine (i : Instr) : HostLine := .wr .cmd (encode i)

/-- `LOAD SRC @off, b0 … ` (R111): one byte write for each byte, at rising offsets. -/
def loadAtLines (off : Nat) : List Byte → List HostLine
  | [] => []
  | b :: bs => .wrb .src off b :: loadAtLines (off + 1) bs

/-- `LOAD SRC, b0 … ` (R111): the bytes from offset 0, then their count to `SRC_LEN`. -/
def loadLines (bs : List Byte) : List HostLine :=
  loadAtLines 0 bs ++ [.wr .srcLen (BitVec.ofNat 32 bs.length)]

/-- `DIMS w, h` (R111). -/
def dimsLines (w h : Int) : List HostLine :=
  [.wr .width (BitVec.ofInt 32 w), .wr .height (BitVec.ofInt 32 h)]

/-- The byte reads of `DUMP DST` once `DST_LEN` has been read as `n` (R111). -/
def dumpLines (n : Nat) : List HostLine := (List.range n).map (fun k => .rdb .dst k)

end Sys2Proof.Machine
end

