-- ==== Sys2Proof/Machine/HostAccess.lean ====
section
/-! DEFINITION. The issue of a command word (45_control_and_host_access.md R250, R253), the host's register and
byte accesses (R255 to R258), one host line (R110, R111), and whose turn it is (R16, R254, R330). -/

namespace Sys2Proof.Machine

/-- A write of `w` to `CMD` (R250, R252, R253): the command it decodes to, or, for an illegal word while
`BUSY = 0`, the error `IllegalCommand`. -/
def issueCommand (w : Word) (s : State) : Host.Outcome State Fault Refusal :=
  match decode w with
  | .ok i => exec i s
  | .error _ => .next (s.whenIdle (fun t => t.reportError .illegalCommand))

/-- The value a register read returns (R22, R255), at any time. -/
def State.readReg (s : State) : Reg → Word
  | .cmd => 0
  | .status => statusWord s.status
  | .ctrl => 0#31 ++ BitVec.ofBool s.ie
  | .width => s.width
  | .height => s.height
  | .srcLen => s.srcLen
  | .dstLen => s.dstLen
  | .outW => s.outW
  | .outH => s.outH
  | .outPad => 0#30 ++ s.outPad

/-- A register write (R256): `CTRL` at any time, the operand registers while `BUSY = 0`; every other write is
discarded, but for `CMD`, whose write is the issue of a command. -/
def writeReg (r : Reg) (v : Word) (s : State) : Host.Outcome State Fault Refusal :=
  match r with
  | .cmd => issueCommand v s
  | .ctrl => .next { s with ie := v.getLsbD 0 }
  | .width => .next (s.whenIdle (fun t => { t with width := v }))
  | .height => .next (s.whenIdle (fun t => { t with height := v }))
  | .srcLen => .next (s.whenIdle (fun t => { t with srcLen := v }))
  | .status => .next s
  | .dstLen => .next s
  | .outW => .next s
  | .outH => .next s
  | .outPad => .next s

/-- A read returns its value to the host and has no other effect on the block (R66, R110). -/
def State.pushResult (s : State) (v : Word) : State := { s with results := v :: s.results }

/-- A byte read that is in range (R257): the stored byte while `BUSY = 0`; while `BUSY = 1` an unspecified byte,
chosen afresh (U3). -/
def State.readByte (s : State) (sp : Space) (off : Nat) : State :=
  if s.status.busy then
    State.pushResult { s with freeUses := s.freeUses + 1 } ((Config.busyReadByte s.freeUses).setWidth 32)
  else s.pushResult ((s.byteAt sp off).setWidth 32)

/-- One host line (R110, R111, R255 to R258, R320), already taken off the program. `WAIT` stays on the program
while the value it reads has bit 0 set. -/
def runLine (l : HostLine) (s : State) : Host.Outcome State Fault Refusal :=
  match l with
  | .rd r => .next (s.pushResult (s.readReg r))
  | .wr r v => writeReg r v s
  | .rdb sp off => if off < s.params.capacity sp then .next (s.readByte sp off) else .fault (.noSuchByte sp off)
  | .wrb sp off b =>
    if off < s.params.capacity sp then .next (s.whenIdle (fun t => t.storeByte sp off b))
    else .fault (.noSuchByte sp off)
  | .reset => .next s.resetBlock
  | .wait =>
    let v := s.readReg .status
    if v.getLsbD 0 then .next (State.pushResult { s with host := .wait :: s.host } v) else .next (s.pushResult v)
  | .dump =>
    let v := s.readReg .dstLen
    .next (State.pushResult { s with host := dumpLines v.toNat ++ s.host } v)

/-- Whose step comes next (R16, R254, R330): the host's while `BUSY = 0`; while `BUSY = 1` the schedule says, and
when it says nothing more the engine completes. -/
def State.turn (s : State) : Agent :=
  if s.status.busy then s.sched.headD .engine else .host

/-- One turn is taken: the schedule is used up by one while `BUSY = 1`. -/
def State.takeTurn (s : State) : State :=
  if s.status.busy then { s with sched := s.sched.tail } else s

/-- The host's turn: it runs its next line; a host with nothing left to do waits. -/
def hostTurn (s : State) : Host.Outcome State Fault Refusal :=
  match s.host with
  | [] => .next s
  | l :: ls => runLine l { s with host := ls }

/-- The command word the coming step writes to `CMD`, where it writes one (R73). -/
def State.fetch (s : State) : Option Word :=
  match s.turn, s.host with
  | .host, .wr .cmd w :: _ => some w
  | _, _ => none

/-- The state in which a fetched command word is issued: its line and its turn are used up. -/
def State.afterFetch (s : State) : State := { s.takeTurn with host := s.host.tail }

/-- Put a command word where the coming step issues it: as the host's next line, with the turn the host's. -/
def State.placeCommand (s : State) (w : Word) : State :=
  { s with host := .wr .cmd w :: s.host
           sched := if s.status.busy then .host :: s.sched else s.sched }

end Sys2Proof.Machine
end

