-- ==== Sys2Proof/Safety.lean ====
section
/-! DEFINITION. The terms claims are stated in. What holds in every state a run reaches (10_state.md R24, R29 to
R32); when a picture passes the checks of `ENC` and of `DEC` (R171, R201); what a conversion must leave (R178,
R180, R207, R208), said by offsets in the layouts and not by the walk that the machine performs. -/

namespace Sys2Proof.Machine

/-- The invariants of `STATUS` (R24). -/
abbrev Status.legal (st : Status) : Prop :=
  (st.busy = true → st.done = false ∧ st.code = 0) ∧
  (st.code ≠ 0 → st.done = true) ∧
  st.err = decide (st.code ≠ 0) ∧
  (st.code = 0 ∨ st.code = 1 ∨ st.code = 2 ∨ st.code = 3 ∨ st.code = 5 ∨ st.code = 6)

/-- The four result registers are 0 (R29 to R32). -/
abbrev State.resultsClear (s : State) : Prop :=
  s.dstLen = 0 ∧ s.outW = 0 ∧ s.outH = 0 ∧ s.outPad = 0

/-- The invariant every step keeps and reset has. -/
structure State.Inv (s : State) : Prop where
  /-- R7. -/
  params_legal : s.params.legal
  /-- R24. -/
  status_legal : s.status.legal
  /-- R29 to R32: 0 while `BUSY`, 0 after an error. -/
  results_clear : (s.status.busy = true ∨ s.status.code ≠ 0) → s.resultsClear
  /-- R29, R34: the output lies inside the destination buffer. -/
  len_le : s.dstLen.toNat ≤ s.params.dstBytes
  /-- R32: a converted width is even. -/
  pad_even : s.outPad = 0 ∨ s.outPad = 2
  /-- The canonical form of the source buffer. -/
  src_wf : Memory.wf s.src
  /-- The canonical form of the destination buffer. -/
  dst_wf : Memory.wf s.dst
  /-- R33: no byte outside the source buffer is ever stored. -/
  src_below : ∀ c ∈ s.src, c.1 < s.params.srcBytes
  /-- R34: no byte outside the destination buffer is ever stored. -/
  dst_below : ∀ c ∈ s.dst, c.1 < s.params.dstBytes

/-- Every line of the host's program is a step of this instance (R65). -/
abbrev State.hostWf (s : State) : Prop := ∀ l ∈ s.host, l.wf s.params = true

/-- Everything a command or the engine leaves alone (R21, R178, R207, R290): the operand registers, `CTRL`, every
byte of `SRC`, and what is not the block's. -/
structure State.KeepsInputs (s u : State) : Prop where
  width : u.width = s.width
  height : u.height = s.height
  srcLen : u.srcLen = s.srcLen
  ie : u.ie = s.ie
  src : ∀ a, u.byteAt .src a = s.byteAt .src a
  params : u.params = s.params
  resets : u.resets = s.resets
  host : u.host = s.host
  sched : u.sched = s.sched
  results : u.results = s.results

/-- The container in `SRC` passes the checks E1 to E4 of R171 as a `w` by `h` picture. -/
structure EncAccepts (s : State) (w h : Nat) : Prop where
  long : 54 ≤ s.srcLen.toNat
  sig0 : s.byteAt .src 0 = 0x42
  sig1 : s.byteAt .src 1 = 0x4D
  depth : readLE (s.byteAt .src) 28 2 = 24
  uncompressed : readLE (s.byteAt .src) 30 4 = 0
  width : (BitVec.ofNat 32 (readLE (s.byteAt .src) 18 4)).toInt = w
  height : (BitVec.ofNat 32 (readLE (s.byteAt .src) 22 4)).toInt = h
  width_pos : 0 < w
  height_pos : 0 < h
  width_even : w % 2 = 0
  whole : 54 + stride w * h ≤ s.srcLen.toNat
  src_fits : 54 + stride w * h ≤ s.params.srcBytes
  dst_fits : w * h * 2 ≤ s.params.dstBytes

/-- The operand registers pass the checks D1 to D3 of R201 as a `w` by `h` picture. -/
structure DecAccepts (s : State) (w h : Nat) : Prop where
  width : s.width.toInt = w
  height : s.height.toInt = h
  width_pos : 0 < w
  height_pos : 0 < h
  width_even : w % 2 = 0
  exact_len : s.srcLen.toNat = w * h * 2
  src_fits : w * h * 2 ≤ s.params.srcBytes
  dst_fits : 54 + stride w * h ≤ s.params.dstBytes

/-- `p(r, x)` of R180: `FWD` of the pixel of picture row `r`, column `x`, which the container holds in disk row
`h - 1 - r` as B, G, R (R68). -/
def convertedPixel (s : State) (w h r x : Nat) : Yuv :=
  fwd { b := s.byteAt .src (54 + (h - 1 - r) * stride w + x * 3)
        g := s.byteAt .src (54 + (h - 1 - r) * stride w + x * 3 + 1)
        r := s.byteAt .src (54 + (h - 1 - r) * stride w + x * 3 + 2) }

/-- The chroma sample of pair `c` (R180): that of its left pixel, or the halved sum with the pixel before it. -/
def pairChroma (filt : Filt) (c : Nat) (left before : Byte) : Nat :=
  if filt = .dir ∨ c = 0 then left.toNat else (left.toNat + before.toNat) / 2

/-- What a successful `ENC` of the `w` by `h` picture in `s` leaves in `u` (R178, R180, R70). -/
structure EncResult (filt : Filt) (s u : State) (w h : Nat) : Prop where
  status : u.status = { busy := false, done := true, err := false, code := 0 }
  dstLen : u.dstLen.toNat = w * h * 2
  outW : u.outW.toNat = w
  outH : u.outH.toNat = h
  outPad : u.outPad.toNat = rowPadding w
  luma : ∀ r < h, ∀ x < w, u.byteAt .dst (r * w + x) = (convertedPixel s w h r x).y
  chromaU : ∀ r < h, ∀ c < w / 2, (u.byteAt .dst (w * h + (r * (w / 2) + c))).toNat =
    pairChroma filt c (convertedPixel s w h r (2 * c)).u (convertedPixel s w h r (2 * c - 1)).u
  chromaV : ∀ r < h, ∀ c < w / 2, (u.byteAt .dst (w * h + w * h / 2 + (r * (w / 2) + c))).toNat =
    pairChroma filt c (convertedPixel s w h r (2 * c)).v (convertedPixel s w h r (2 * c - 1)).v
  beyond : ∀ a, w * h * 2 ≤ a → u.byteAt .dst a = s.byteAt .dst a
  kept : s.KeepsInputs u

/-- `INV` of the samples of the pixel of picture row `i`, column `j` (R69, R204): its own Y, its pair's U and V. -/
def decodedPixel (s : State) (w h i j : Nat) : Rgb :=
  inv { y := s.byteAt .src (i * w + j)
        u := s.byteAt .src (w * h + (i * (w / 2) + j / 2))
        v := s.byteAt .src (w * h + w * h / 2 + (i * (w / 2) + j / 2)) }

/-- What a successful `DEC` of the `w` by `h` picture in `s` leaves in `u` (R207, R208, R70); the header's bytes
are `DecHeader`. -/
structure DecResult (s u : State) (w h : Nat) : Prop where
  status : u.status = { busy := false, done := true, err := false, code := 0 }
  dstLen : u.dstLen.toNat = 54 + stride w * h
  outW : u.outW.toNat = w
  outH : u.outH.toNat = h
  outPad : u.outPad.toNat = rowPadding w
  blue : ∀ i < h, ∀ j < w, u.byteAt .dst (54 + (h - 1 - i) * stride w + j * 3) = (decodedPixel s w h i j).b
  green : ∀ i < h, ∀ j < w, u.byteAt .dst (54 + (h - 1 - i) * stride w + j * 3 + 1) = (decodedPixel s w h i j).g
  red : ∀ i < h, ∀ j < w, u.byteAt .dst (54 + (h - 1 - i) * stride w + j * 3 + 2) = (decodedPixel s w h i j).r
  padding : ∀ y < h, ∀ k < rowPadding w, u.byteAt .dst (54 + y * stride w + w * 3 + k) = 0xFF
  beyond : ∀ a, 54 + stride w * h ≤ a → u.byteAt .dst a = s.byteAt .dst a
  kept : s.KeepsInputs u

/-- The header of a `w` by `h` container, read through `rd` field by field (R67, R231). -/
structure DecHeader (rd : Nat → Byte) (w h : Nat) : Prop where
  sig0 : rd 0 = 0x42
  sig1 : rd 1 = 0x4D
  fileSize : readLE rd 2 4 = 54 + stride w * h
  reserved : readLE rd 6 4 = 0
  dataOffset : readLE rd 10 4 = 54
  headerSize : readLE rd 14 4 = 40
  width : readLE rd 18 4 = w
  height : readLE rd 22 4 = h
  planes : readLE rd 26 2 = 1
  bitsPerPixel : readLE rd 28 2 = 24
  compression : readLE rd 30 4 = 0
  imageSize : readLE rd 34 4 = stride w * h
  xRes : readLE rd 38 4 = 0
  yRes : readLE rd 42 4 = 0
  colorsUsed : readLE rd 46 4 = 0
  importantColors : readLE rd 50 4 = 0

/-- An operation that ended with error code `k` (R290): the report, the result registers at 0, every byte of `DST`
and everything of `KeepsInputs` as before. -/
structure EndsWithError (s u : State) (k : BitVec 4) : Prop where
  status : u.status = { busy := false, done := true, err := true, code := k }
  results_clear : u.resultsClear
  dst : ∀ a, u.byteAt .dst a = s.byteAt .dst a
  kept : s.KeepsInputs u

/-- The report and the output of an operation: what the host can see of it when it has ended (R261). -/
structure SameOutcome (u v : State) : Prop where
  status : u.status = v.status
  dstLen : u.dstLen = v.dstLen
  outW : u.outW = v.outW
  outH : u.outH = v.outH
  outPad : u.outPad = v.outPad
  output : ∀ a < u.dstLen.toNat, u.byteAt .dst a = v.byteAt .dst a

end Sys2Proof.Machine
end

