-- ==== Sys2Proof/Certificates/Slice0/Obligations.lean ====
section
/-! DEFINITION. What is claimed of the machine, one `def Obligations.<Name> : Prop` each (OBLIGATIONS.json). -/

open Sys2Proof Sys2Proof.Machine

/-- R101: the four command words, each matched on all 32 bits. -/
def Obligations.DecodeReadsExactlyTheFourWords : Prop :=
  encode .clr = 0x00000000 ∧ encode .encAvg = 0x00000001 ∧ encode .encDir = 0x00000101 ∧
  encode .dec = 0x00000002 ∧ ∀ (w : Word) (i : Instr), decode w = .ok i ↔ w = encode i

/-- A few words written out from R101 and 95_test_vectors.md K5 to K9. -/
def Obligations.DecodeOfSampleWords : Prop :=
  decode 0b00000000000000000000000000000000 = .ok .clr ∧
  decode 0b00000000000000000000000000000001 = .ok .encAvg ∧
  decode 0b00000000000000000000000100000001 = .ok .encDir ∧
  decode 0b00000000000000000000000000000010 = .ok .dec ∧
  decode 0x00000003 = .error .undefinedOp ∧ decode 0x00000102 = .error .filtWithoutEnc ∧
  decode 0x00000100 = .error .filtWithoutEnc ∧ decode 0x00000011 = .error .reservedBits ∧
  decode 0x80000001 = .error .reservedBits

/-- R104 and R253: which words are illegal, and what writing one does while `BUSY = 0`. -/
def Obligations.IllegalWordReportsIllegalCommand : Prop :=
  ∀ (w : Word),
    ((3 ≤ (w.extractLsb' 0 4).toNat ∨ w.extractLsb' 4 4 ≠ 0 ∨ w.extractLsb' 9 23 ≠ 0 ∨
        (w.getLsbD 8 = true ∧ (w.extractLsb' 0 4).toNat ≠ 1)) ↔
      (w ≠ 0x00000000 ∧ w ≠ 0x00000001 ∧ w ≠ 0x00000101 ∧ w ≠ 0x00000002)) ∧
    ((w ≠ 0x00000000 ∧ w ≠ 0x00000001 ∧ w ≠ 0x00000101 ∧ w ≠ 0x00000002) →
      ∀ s : State, s.status.busy = false →
        issueCommand w s = .next { s with
          status := { busy := false, done := true, err := true, code := 6 }
          dstLen := 0, outW := 0, outH := 0, outPad := 0 })

/-- R21, R108: which register stands at which of the ten offsets, and that no other offset has one. -/
def Obligations.RegisterMapIsOneToOne : Prop :=
  (regOffset .cmd = 0x00 ∧ regOffset .status = 0x04 ∧ regOffset .ctrl = 0x08 ∧ regOffset .width = 0x0C ∧
    regOffset .height = 0x10 ∧ regOffset .srcLen = 0x14 ∧ regOffset .dstLen = 0x18 ∧ regOffset .outW = 0x1C ∧
    regOffset .outH = 0x20 ∧ regOffset .outPad = 0x24) ∧
  (∀ r : Reg, regAt (regOffset r) = some r ∧ regOffset r % 4 = 0 ∧ regOffset r < 0x28) ∧
  (∀ off r, regAt off = some r → regOffset r = off) ∧
  (∀ off, regAt off = none ↔ (off % 4 ≠ 0 ∨ 0x28 ≤ off))

/-- The step at which a word is written to `CMD` runs the command the word decodes to, with the host's line and,
while `BUSY = 1`, one turn of the schedule used up (R73, R250); the host's lines and the schedule are the model's own fields
(notes/assumptions/7.md, 8.md). -/
def Obligations.StepRunsTheDecodedCommand : Prop :=
  ∀ (s : State) (w : Word) (i : Instr), s.fetch = some w → decode w = .ok i →
    step s = exec i { s with host := s.host.tail
                             sched := if s.status.busy then s.sched.tail else s.sched }

/-- A word placed by `withFetchWord` is the word the coming step fetches; how a command reaches the block from
outside is the model's own choice (notes/assumptions/7.md). -/
def Obligations.PlacedWordIsFetched : Prop :=
  ∀ (s : State) (w : Word), (s.withFetchWord 32 w.toNat).fetch = some w ∧
    { s.withFetchWord 32 w.toNat with host := s.host, sched := s.sched } = s

/-- The host's turn (R16, R71): the step runs the host's next line, with that line and, while `BUSY = 1`, one entry
of the schedule used up; a host with no line left waits. The lines and the schedule are the model's own fields
(notes/assumptions/7.md, 8.md). -/
def Obligations.StepRunsTheHostsNextLine : Prop :=
  ∀ s : State, s.turn = .host →
    (∀ l ls, s.host = l :: ls →
      step s = runLine l { s with host := ls
                                  sched := if s.status.busy then s.sched.tail else s.sched }) ∧
    (s.host = [] → step s = .next { s with sched := if s.status.busy then s.sched.tail else s.sched })

/-- R251, R252: `CLR` clears the report and changes nothing else; while `BUSY = 1` it changes nothing. -/
def Obligations.ClrClearsOnlyTheReport : Prop :=
  ∀ s : State,
    (s.status.busy = false → exec .clr s =
      .next { s with status := { busy := false, done := false, err := false, code := 0 } }) ∧
    (s.status.busy = true → exec .clr s = .next s)

/-- R250: the start of each operation, as the whole next state. -/
def Obligations.CommandStartsItsOperation : Prop :=
  ∀ s : State, s.status.busy = false →
    exec .encAvg s = .next { s with
      h := { s.h with op := .enc, filt := .avg }
      dstLen := 0, outW := 0, outH := 0, outPad := 0
      status := { busy := true, done := false, err := false, code := 0 } } ∧
    exec .encDir s = .next { s with
      h := { s.h with op := .enc, filt := .dir }
      dstLen := 0, outW := 0, outH := 0, outPad := 0
      status := { busy := true, done := false, err := false, code := 0 } } ∧
    exec .dec s = .next { s with
      h := { s.h with op := .dec, filt := .avg }
      dstLen := 0, outW := 0, outH := 0, outPad := 0
      status := { busy := true, done := false, err := false, code := 0 } }

/-- R105, R252: any word written to `CMD` while `BUSY = 1` is discarded whole. -/
def Obligations.BusyDiscardsEveryCommandWord : Prop :=
  ∀ (s : State) (w : Word), s.status.busy = true →
    issueCommand w s = .next s ∧ ∀ i : Instr, exec i s = .next s

/-- R254 and the schedule of notes/assumptions/8.md: the engine moves exactly when `BUSY = 1` and the schedule names it or says nothing more, and its move
is `complete`, after which `BUSY` is 0 and `DONE` is 1. -/
def Obligations.EngineTurnCompletesTheOperation : Prop :=
  ∀ s : State,
    (s.turn = .engine ↔ (s.status.busy = true ∧ (s.sched = [] ∨ ∃ rest, s.sched = .engine :: rest))) ∧
    (s.turn = .engine → step s = .next (complete { s with sched := s.sched.tail })) ∧
    (complete s).status.busy = false ∧ (complete s).status.done = true

/-- R170, R180: `ENC.AVG` issued on an acceptable container, then completed by the engine. -/
def Obligations.EncAvgConvertsThePicture : Prop :=
  ∀ (s : State) (w h : Nat), s.params.legal → s.status.busy = false → EncAccepts s w h →
    ∃ t, exec .encAvg s = .next t ∧ t.status.busy = true ∧ EncResult .avg s (complete t) w h

/-- R170, R180: `ENC.DIR` issued on an acceptable container, then completed by the engine. -/
def Obligations.EncDirConvertsThePicture : Prop :=
  ∀ (s : State) (w h : Nat), s.params.legal → s.status.busy = false → EncAccepts s w h →
    ∃ t, exec .encDir s = .next t ∧ t.status.busy = true ∧ EncResult .dir s (complete t) w h

/-- R200, R208: `DEC` issued on an acceptable planar image, then completed by the engine. -/
def Obligations.DecConvertsThePicture : Prop :=
  ∀ (s : State) (w h : Nat), s.params.legal → s.status.busy = false → DecAccepts s w h →
    ∃ t, exec .dec s = .next t ∧ t.status.busy = true ∧ DecResult s (complete t) w h

/-- R231: every field of the header `DEC` writes. -/
def Obligations.DecWritesTheHeader : Prop :=
  ∀ (s : State) (w h : Nat), s.params.legal → s.h.op = .dec → DecAccepts s w h →
    DecHeader ((complete s).byteAt .dst) w h

/-- R232: a written container passes the block's own parser, and, moved back to `SRC` with its length, the checks
of `ENC` up to capacity; its header satisfies the layout's other values. -/
def Obligations.DecOutputIsAcceptedByEnc : Prop :=
  ∀ (s : State) (w h : Nat), s.params.legal → s.h.op = .dec → DecAccepts s w h →
    parse ((complete s).byteAt .dst) = .ok { width := w, height := h, pad := rowPadding w } ∧
    readLE ((complete s).byteAt .dst) 2 4 = (complete s).dstLen.toNat ∧
    readLE ((complete s).byteAt .dst) 2 4 - readLE ((complete s).byteAt .dst) 10 4 =
      readLE ((complete s).byteAt .dst) 34 4 ∧
    readLE ((complete s).byteAt .dst) 34 4 = stride w * h ∧
    readLE ((complete s).byteAt .dst) 14 4 = 40 ∧ readLE ((complete s).byteAt .dst) 26 2 = 1 ∧
    readLE ((complete s).byteAt .dst) 46 4 = 0 ∧ readLE ((complete s).byteAt .dst) 50 4 = 0 ∧
    readLE ((complete s).byteAt .dst) 10 4 = 54 ∧
    ∀ t : State, t.srcLen = (complete s).dstLen →
      (∀ a < t.srcLen.toNat, t.byteAt .src a = (complete s).byteAt .dst a) →
      ∀ k, runEnc t.h.filt t = .error k → k = .capacity

/-- R171, R281, R282, R284, R286, R289: which error an `ENC` ends with, in the order of its checks. -/
def Obligations.EncReportsTheFirstFailedCheck : Prop :=
  ∀ s : State, s.h.op = .enc →
    let rd := s.byteAt .src
    let wi := (BitVec.ofNat 32 (readLE rd 18 4)).toInt
    let hi := (BitVec.ofNat 32 (readLE rd 22 4)).toInt
    (s.srcLen.toNat < 54 → EndsWithError s (complete s) 3) ∧
    (54 ≤ s.srcLen.toNat →
      ((rd 0 ≠ 0x42 ∨ rd 1 ≠ 0x4D ∨ readLE rd 28 2 ≠ 24 ∨ readLE rd 30 4 ≠ 0) →
        EndsWithError s (complete s) 1) ∧
      (rd 0 = 0x42 → rd 1 = 0x4D → readLE rd 28 2 = 24 → readLE rd 30 4 = 0 →
        ((wi ≤ 0 ∨ hi ≤ 0 ∨ wi % 2 = 1) → EndsWithError s (complete s) 2) ∧
        (0 < wi → 0 < hi → wi % 2 = 0 →
          (s.srcLen.toNat < 54 + stride wi.toNat * hi.toNat → EndsWithError s (complete s) 3) ∧
          (54 + stride wi.toNat * hi.toNat ≤ s.srcLen.toNat →
            ((s.params.srcBytes < 54 + stride wi.toNat * hi.toNat ∨
                s.params.dstBytes < wi.toNat * hi.toNat * 2) → EndsWithError s (complete s) 5) ∧
            (54 + stride wi.toNat * hi.toNat ≤ s.params.srcBytes →
              wi.toNat * hi.toNat * 2 ≤ s.params.dstBytes → (complete s).status.code = 0)))))

/-- R201, R282, R283, R286, R289: which error a `DEC` ends with, in the order of its checks. -/
def Obligations.DecReportsTheFirstFailedCheck : Prop :=
  ∀ s : State, s.h.op = .dec →
    let wi := s.width.toInt
    let hi := s.height.toInt
    ((wi ≤ 0 ∨ hi ≤ 0 ∨ wi % 2 = 1) → EndsWithError s (complete s) 2) ∧
    (0 < wi → 0 < hi → wi % 2 = 0 →
      (s.srcLen.toNat ≠ wi.toNat * hi.toNat * 2 → EndsWithError s (complete s) 3) ∧
      (s.srcLen.toNat = wi.toNat * hi.toNat * 2 →
        ((s.params.srcBytes < wi.toNat * hi.toNat * 2 ∨
            s.params.dstBytes < 54 + stride wi.toNat * hi.toNat) → EndsWithError s (complete s) 5) ∧
        (wi.toNat * hi.toNat * 2 ≤ s.params.srcBytes →
          54 + stride wi.toNat * hi.toNat ≤ s.params.dstBytes → (complete s).status.code = 0)))

/-- R291: an operation that ends with an error has written no byte of `DST`; one that ends without has written
every byte below `DST_LEN` (none is left of what `DST` held before) and, R70, none above. -/
def Obligations.OutputIsWholeOrAbsent : Prop :=
  ∀ s : State, s.params.legal →
    ((complete s).status.code ≠ 0 → ∀ a, (complete s).byteAt .dst a = s.byteAt .dst a) ∧
    ((complete s).status.code = 0 →
      (∀ a, (complete s).dstLen.toNat ≤ a → (complete s).byteAt .dst a = s.byteAt .dst a) ∧
      ∀ (m : Memory) (a : Nat), a < (complete s).dstLen.toNat →
        (complete { s with dst := m }).byteAt .dst a = (complete s).byteAt .dst a)

/-- R21: what the engine and the commands never write. -/
def Obligations.CommandsKeepTheInputs : Prop :=
  ∀ s : State, s.KeepsInputs (complete s) ∧
    ∀ (w : Word), ∃ t, issueCommand w s = .next t ∧ s.KeepsInputs t ∧
      ∀ a, t.byteAt .dst a = s.byteAt .dst a

/-- R17: the outcome of an operation is a function of the command, the operand registers, the declared input
bytes that exist and the parameters. In a legal instance (R7) every offset below 54 exists; the bound 54 matters
only where a capacity is smaller than R7 allows. -/
def Obligations.OutcomeDependsOnlyOnTheInputs : Prop :=
  ∀ s t : State, s.params = t.params → s.h.op = t.h.op → s.h.filt = t.h.filt →
    s.width = t.width → s.height = t.height → s.srcLen = t.srcLen →
    (∀ a < s.srcLen.toNat, (a < 54 ∨ a < s.params.srcBytes) → s.byteAt .src a = t.byteAt .src a) →
    SameOutcome (complete s) (complete t)

/-- R155, R177: of a container, `ENC` reads only the checked header fields and the pixel bytes, whatever the signed
width and height of the header (none of whose pixels exist where one is not positive). -/
def Obligations.EncIgnoresUncheckedFieldsAndPadding : Prop :=
  ∀ (s t : State) (w h : Int), s.params = t.params → s.h.op = .enc → t.h.op = .enc → s.h.filt = t.h.filt →
    s.srcLen = t.srcLen →
    (BitVec.ofNat 32 (readLE (s.byteAt .src) 18 4)).toInt = w →
    (BitVec.ofNat 32 (readLE (s.byteAt .src) 22 4)).toInt = h →
    (∀ a < 54, (a < 2 ∨ (18 ≤ a ∧ a < 26) ∨ (28 ≤ a ∧ a < 34)) → s.byteAt .src a = t.byteAt .src a) →
    (∀ y < h.toNat, ∀ x < w.toNat, ∀ c < 3, s.byteAt .src (54 + y * stride w.toNat + x * 3 + c) =
      t.byteAt .src (54 + y * stride w.toNat + x * 3 + c)) →
    SameOutcome (complete s) (complete t)

/-- R292: the same command on the same inputs ends with the same error again. -/
def Obligations.RepeatedCommandRepeatsTheError : Prop :=
  ∀ (s t t' : State) (i : Instr), s.status.busy = false → i ≠ .clr → exec i s = .next t →
    (complete t).status.code ≠ 0 → exec i (complete t) = .next t' →
    (complete t).status.busy = false ∧ (complete t').status = (complete t).status ∧
      ∀ a, (complete t').byteAt .dst a = s.byteAt .dst a

/-- R175: on a picture of width 2 the two filters give the same output. -/
def Obligations.FiltersAgreeAtWidthTwo : Prop :=
  ∀ (s : State) (h : Nat), EncAccepts s 2 h → completeEncAvg s = completeEncDir s

/-- The invariant holds right after reset, for every legal instance. -/
def Obligations.ResetStateHasTheInvariant : Prop :=
  (∀ p : Params, p.legal → (State.initial p).Inv) ∧ State.reset.Inv

/-- Every step keeps the invariant: the legal statuses, the bounds and canonical form of the buffers, the result
registers while they mean nothing. -/
def Obligations.StepKeepsTheInvariant : Prop :=
  ∀ s t : State, s.Inv → step s = .next t → t.Inv

/-- R24: the legal statuses hold from reset on, and are read as one of eight words. -/
def Obligations.StatusReadsOneOfEightWords : Prop :=
  (∀ p : Params, (State.initial p).status.legal) ∧
  (∀ s t : State, s.status.legal → step s = .next t → t.status.legal) ∧
  (∀ st : Status, st.legal →
    statusWord st ∈ ([0x000, 0x001, 0x002, 0x106, 0x206, 0x306, 0x506, 0x606] : List Word))

/-- R288: a host that makes only the steps the spec defines never meets a fault or a refusal. -/
def Obligations.DefinedHostStepsNeverStop : Prop :=
  ∀ s : State, s.Inv → s.hostWf → ∃ t, step s = .next t ∧ t.hostWf

/-- R330: an accepted operation ends, whatever the host does meanwhile short of a reset; the bound is that of the
schedule, which is the model's own form of the fairness (notes/assumptions/8.md). -/
def Obligations.AcceptedOperationEnds : Prop :=
  ∀ s : State, s.Inv → s.hostWf → s.status.busy = true → (∀ l ∈ s.host, l ≠ .reset) →
    ∃ (k : Nat) (t : State), k ≤ s.sched.length + 1 ∧ Host.Core.run Sys2Proof.core k s = .next t ∧
      t.status.busy = false ∧ t.status.done = true

/-- R320, R321: what `RESET` leaves, in any state. That the host's remaining lines and the results stay is the model's
own choice (notes/assumptions/12.md), and so is the form of the arbitrary buffer bytes, the free value of a new
epoch (notes/assumptions/2.md). -/
def Obligations.ResetStepLeavesTheResetValues : Prop :=
  ∀ (s : State) (ls : List HostLine), s.turn = .host → s.host = .reset :: ls →
    ∃ t, step s = .next t ∧ t.status = { busy := false, done := false, err := false, code := 0 } ∧
      t.ie = false ∧ t.width = 0 ∧ t.height = 0 ∧ t.srcLen = 0 ∧ t.dstLen = 0 ∧ t.outW = 0 ∧ t.outH = 0 ∧
      t.outPad = 0 ∧ irq t = false ∧ t.turn = .host ∧ t.params = s.params ∧ t.host = ls ∧
      t.results = s.results ∧ t.resets = s.resets + 1 ∧
      ∀ sp a, t.byteAt sp a = Config.resetByte (s.resets + 1) sp a

/-- R40, R41: the reset values of every register, and every buffer byte arbitrary: that each is the free value of
epoch 0 is the model's own form of that (notes/assumptions/2.md). -/
def Obligations.ResetValuesOfEveryRegister : Prop :=
  ∀ p : Params, (∀ r : Reg, (State.initial p).readReg r = 0) ∧ irq (State.initial p) = false ∧
    (State.initial p).turn = .host ∧ (State.initial p).params = p ∧
    (∀ sp a, (State.initial p).byteAt sp a = Config.resetByte 0 sp a)

/-- R255: what each register reads as, in any state, with no other effect; the list of results the value is added to
is the model's own field (notes/assumptions/7.md). -/
def Obligations.RegisterReadsHaveNoSideEffect : Prop :=
  ∀ (s : State) (r : Reg), runLine (.rd r) s = .next { s with results := s.readReg r :: s.results } ∧
    s.readReg .cmd = 0 ∧
    (s.readReg .status).getLsbD 0 = s.status.busy ∧ (s.readReg .status).getLsbD 1 = s.status.done ∧
    (s.readReg .status).getLsbD 2 = s.status.err ∧ (s.readReg .status).extractLsb' 3 5 = 0 ∧
    (s.readReg .status).extractLsb' 8 4 = s.status.code ∧ (s.readReg .status).extractLsb' 12 20 = 0 ∧
    (s.readReg .ctrl).getLsbD 0 = s.ie ∧ (s.readReg .ctrl).extractLsb' 1 31 = 0 ∧
    s.readReg .width = s.width ∧ s.readReg .height = s.height ∧ s.readReg .srcLen = s.srcLen ∧
    s.readReg .dstLen = s.dstLen ∧ s.readReg .outW = s.outW ∧ s.readReg .outH = s.outH ∧
    (s.readReg .outPad).extractLsb' 0 2 = s.outPad ∧ (s.readReg .outPad).extractLsb' 2 30 = 0

/-- R256: what a write to each register does, while idle and while busy. -/
def Obligations.RegisterWritesFollowTheTable : Prop :=
  ∀ (s : State) (v : Word),
    runLine (.wr .cmd v) s = issueCommand v s ∧
    runLine (.wr .ctrl v) s = .next { s with ie := v.getLsbD 0 } ∧
    (s.status.busy = false → runLine (.wr .width v) s = .next { s with width := v } ∧
      runLine (.wr .height v) s = .next { s with height := v } ∧
      runLine (.wr .srcLen v) s = .next { s with srcLen := v }) ∧
    (s.status.busy = true → ∀ r : Reg, r ≠ .ctrl → runLine (.wr r v) s = .next s) ∧
    (∀ r ∈ [Reg.status, .dstLen, .outW, .outH, .outPad], runLine (.wr r v) s = .next s)

/-- R257: a byte read returns the stored byte while idle, and changes nothing. While busy it returns some byte: that
this is a free value, counted by `freeUses`, is the model's own choice (notes/assumptions/3.md), and so is the list
of results a read adds to (notes/assumptions/7.md). -/
def Obligations.BufferReadReturnsTheByte : Prop :=
  ∀ (s : State) (sp : Space) (off : Nat), off < s.params.capacity sp →
    (s.status.busy = false →
      runLine (.rdb sp off) s = .next { s with results := (s.byteAt sp off).setWidth 32 :: s.results }) ∧
    (s.status.busy = true → ∃ (t : State) (b : Byte), runLine (.rdb sp off) s = .next t ∧
      t = { s with freeUses := s.freeUses + 1, results := b.setWidth 32 :: s.results })

/-- R258: a byte write stores the byte while idle, changes no other byte, and is discarded while busy. -/
def Obligations.BufferWriteStoresOneByte : Prop :=
  ∀ (s : State) (sp : Space) (off : Nat) (b : Byte), off < s.params.capacity sp →
    (s.status.busy = false → ∃ t, runLine (.wrb sp off b) s = .next t ∧
      t.byteAt sp off = b ∧ (∀ sp' a, (sp', a) ≠ (sp, off) → t.byteAt sp' a = s.byteAt sp' a) ∧
      { t with src := s.src, dst := s.dst } = s) ∧
    (s.status.busy = true → runLine (.wrb sp off b) s = .next s)

/-- R65, R260: a byte access at or beyond the capacity is no step of the block; that the model faults there is its
own choice (notes/assumptions/6.md). -/
def Obligations.AccessBeyondTheBufferStops : Prop :=
  ∀ (s : State) (sp : Space) (off : Nat) (b : Byte), s.params.capacity sp ≤ off →
    runLine (.rdb sp off) s = .fault (.noSuchByte sp off) ∧
    runLine (.wrb sp off b) s = .fault (.noSuchByte sp off)

/-- R327: while `BUSY = 1` no host line but `RESET` changes what the operation reads or has latched, and the
result registers read 0. -/
def Obligations.EngineOwnsTheBuffersWhileBusy : Prop :=
  ∀ (s t : State) (l : HostLine), s.Inv → s.status.busy = true → l ≠ .reset → runLine l s = .next t →
    t.src = s.src ∧ t.dst = s.dst ∧ t.width = s.width ∧ t.height = s.height ∧ t.srcLen = s.srcLen ∧
    t.status = s.status ∧ t.h = s.h ∧ t.params = s.params ∧ t.resets = s.resets ∧ t.sched = s.sched ∧
    (∀ r ∈ [Reg.dstLen, .outW, .outH, .outPad], t.readReg r = 0) ∧
    (∀ v, l = .wr .ctrl v → t.ie = v.getLsbD 0) ∧
    (∀ r, l = .rd r → t.results = s.readReg r :: s.results) ∧
    (∀ sp off, l = .rdb sp off → ∃ b : Byte, t.results = b.setWidth 32 :: s.results)

/-- R293: what raises the interrupt wire and what drops it. -/
def Obligations.InterruptFollowsDoneAndEnable : Prop :=
  ∀ s : State, irq s = (s.ie && s.status.done) ∧ irq (complete s) = s.ie ∧
    irq s.resetBlock = false ∧
    (∀ t v, runLine (.wr .ctrl v) s = .next t → irq t = (v.getLsbD 0 && s.status.done)) ∧
    (s.status.busy = false →
      (∀ i t, exec i s = .next t → irq t = false) ∧
      (∀ w e t, decode w = .error e → issueCommand w s = .next t → irq t = s.ie))

/-- R130: `clamp8` clips to [0, 255] and is idempotent. -/
def Obligations.Clamp8ClipsToAByte : Prop :=
  ∀ x : Int, (x < 0 → clamp8 x = 0) ∧ (255 < x → clamp8 x = 255) ∧ (0 ≤ x → x ≤ 255 → clamp8 x = x) ∧
    clamp8 (clamp8 x) = clamp8 x ∧ ((sample x).toNat : Int) = clamp8 x

/-- R132, with R133.1: the forward transform on exact integers; its clamps never act. -/
def Obligations.ForwardTransformNeverClamps : Prop :=
  ∀ p : Rgb,
    ((fwd p).y.toNat : Int) = (612 * (p.r.toNat : Int) + 1202 * p.g.toNat + 233 * p.b.toNat) / 2048 ∧
    ((fwd p).u.toNat : Int) = (-346 * (p.r.toNat : Int) - 678 * p.g.toNat + 1024 * p.b.toNat) / 2048 + 128 ∧
    ((fwd p).v.toNat : Int) = (1024 * (p.r.toNat : Int) - 857 * p.g.toNat - 167 * p.b.toNat) / 2048 + 128 ∧
    (fwd p).y.toNat ≤ 254

/-- R133.2 to R133.4: gray pixels, and the values the chroma reaches. -/
def Obligations.ForwardTransformOfGrayAndItsRange : Prop :=
  (∀ v : Byte, (fwd { r := v, g := v, b := v }).y.toNat = v.toNat - 1 ∧
    (fwd { r := v, g := v, b := v }).u = 128 ∧ (fwd { r := v, g := v, b := v }).v = 128) ∧
  (∀ u : Byte, ∃ p, (fwd p).u = u) ∧ (∀ v : Byte, ∃ p, (fwd p).v = v)

/-- R134: the inverse transform on exact integers with its floor shift and clamps, and the range of its sums. -/
def Obligations.InverseTransformClampsItsSums : Prop :=
  ∀ q : Yuv,
    let y := (q.y.toNat : Int)
    let u := (q.u.toNat : Int)
    let v := (q.v.toNat : Int)
    ((inv q).r.toNat : Int) = max 0 (min 255 ((2048 * y + 2871 * v - 367488) / 2048)) ∧
    ((inv q).g.toNat : Int) = max 0 (min 255 ((2048 * y - 704 * u - 1463 * v + 277376) / 2048)) ∧
    ((inv q).b.toNat : Int) = max 0 (min 255 ((2048 * y + 3629 * u - 464512) / 2048)) ∧
    -367488 ≤ rSum q ∧ rSum q ≤ 886857 ∧ -275209 ≤ gSum q ∧ gSum q ≤ 799616 ∧
    -464512 ≤ bSum q ∧ bSum q ≤ 983123

/-- R135: neutral chroma passes luma through; the spec's saturation and shift instances. -/
def Obligations.NeutralChromaPassesLuma : Prop :=
  (∀ y : Byte, inv { y := y, u := 128, v := 128 } = { r := y, g := y, b := y }) ∧
  inv { y := 0, u := 0, v := 0 } = { r := 0, g := 135, b := 0 } ∧
  inv { y := 255, u := 255, v := 255 } = { r := 255, g := 120, b := 255 } ∧
  inv { y := 100, u := 129, v := 127 } = { r := 98, g := 100, b := 101 }

/-- R137: the exact error of one pixel's round trip, its bounds met by some pixel each. -/
def Obligations.PixelRoundTripErrorIsBounded : Prop :=
  (∀ p : Rgb,
    (p.r.toNat : Int) - 3 ≤ (inv (fwd p)).r.toNat ∧ (inv (fwd p)).r.toNat ≤ p.r.toNat ∧
    (p.g.toNat : Int) - 2 ≤ (inv (fwd p)).g.toNat ∧ (inv (fwd p)).g.toNat ≤ p.g.toNat + 1 ∧
    (p.b.toNat : Int) - 3 ≤ (inv (fwd p)).b.toNat ∧ (inv (fwd p)).b.toNat ≤ p.b.toNat ∧
    ((fwd p).y.toNat : Int) - 2 ≤ (fwd (inv (fwd p))).y.toNat ∧
    (fwd (inv (fwd p))).y.toNat ≤ (fwd p).y.toNat) ∧
  (∃ p : Rgb, (inv (fwd p)).r.toNat + 3 = p.r.toNat) ∧ (∃ p : Rgb, (inv (fwd p)).r = p.r) ∧
  (∃ p : Rgb, (inv (fwd p)).g.toNat + 2 = p.g.toNat) ∧ (∃ p : Rgb, (inv (fwd p)).g.toNat = p.g.toNat + 1) ∧
  (∃ p : Rgb, (inv (fwd p)).b.toNat + 3 = p.b.toNat) ∧ (∃ p : Rgb, (inv (fwd p)).b = p.b) ∧
  (∃ p : Rgb, (fwd (inv (fwd p))).y.toNat + 2 = (fwd p).y.toNat) ∧
  (∃ p : Rgb, (fwd (inv (fwd p))).y = (fwd p).y) ∧
  (∀ v : Byte, (inv (fwd { r := v, g := v, b := v })).r.toNat = v.toNat - 1 ∧
    (inv (fwd { r := v, g := v, b := v })).g.toNat = v.toNat - 1 ∧
    (inv (fwd { r := v, g := v, b := v })).b.toNat = v.toNat - 1)

/-- R150: the size formulas' stated properties. -/
def Obligations.SizeFormulasAgree : Prop :=
  ∀ w h : Nat, stride w = w * 3 + (4 - (w * 3) % 4) % 4 ∧ stride w = ((w * 3 + 3) / 4) * 4 ∧
    (w % 4 = 0 → rowPadding w = 0) ∧ (w % 4 = 2 → rowPadding w = 2) ∧
    (w % 2 = 1 → rowPadding w = 1 ∨ rowPadding w = 3) ∧
    payloadLen w h = stride w * h ∧ containerLen w h = 54 + stride w * h ∧ planarLen w h = w * h * 2 ∧
    (w < 2 ^ 31 → h < 2 ^ 31 → containerLen w h < 2 ^ 65)

/-- R69, R70: the three planes tile the planar image, one sample to a byte in each. -/
def Obligations.PlanesTileThePlanarImage : Prop :=
  ∀ w h : Nat, w % 2 = 0 →
    (∀ a, a < w * h * 2 →
      (∃ r x, r < h ∧ x < w ∧ a = yOffset w r x) ∨ (∃ r c, r < h ∧ c < w / 2 ∧ a = uOffset w h r c) ∨
        (∃ r c, r < h ∧ c < w / 2 ∧ a = vOffset w h r c)) ∧
    (∀ r x, r < h → x < w → yOffset w r x < w * h) ∧
    (∀ r c, r < h → c < w / 2 → w * h ≤ uOffset w h r c ∧ uOffset w h r c < w * h + w * h / 2) ∧
    (∀ r c, r < h → c < w / 2 → w * h + w * h / 2 ≤ vOffset w h r c ∧ vOffset w h r c < w * h * 2) ∧
    (∀ r x r' x', r < h → x < w → r' < h → x' < w → yOffset w r x = yOffset w r' x' → r = r' ∧ x = x') ∧
    (∀ r c r' c', r < h → c < w / 2 → r' < h → c' < w / 2 → uOffset w h r c = uOffset w h r' c' →
      r = r' ∧ c = c') ∧
    (∀ r c r' c', r < h → c < w / 2 → r' < h → c' < w / 2 → vOffset w h r c = vOffset w h r' c' →
      r = r' ∧ c = c')

/-- R68, R70: the payload is tiled by the rows' pixels and padding, no two of whose bytes share an offset; within a
row the padding follows the pixels, and the rows lie one after another. -/
def Obligations.RowsTileThePayload : Prop :=
  ∀ w h : Nat,
    (∀ a, 54 ≤ a → a < containerLen w h →
      (∃ y x c, y < h ∧ x < w ∧ c < 3 ∧ a = pixelOffset w y x + c) ∨
        (∃ y k, y < h ∧ k < rowPadding w ∧ a = padOffset w y k)) ∧
    (∀ y x c, y < h → x < w → c < 3 →
      54 ≤ pixelOffset w y x ∧ pixelOffset w y x + c < containerLen w h ∧
      pixelOffset w y x + c < pixelOffset w (y + 1) 0) ∧
    (∀ y k, y < h → k < rowPadding w →
      padOffset w y k < containerLen w h ∧ padOffset w y k < pixelOffset w (y + 1) 0) ∧
    (∀ y x c k, x < w → c < 3 → k < rowPadding w → pixelOffset w y x + c < padOffset w y k) ∧
    (∀ y x c y' x' c', x < w → c < 3 → x' < w → c' < 3 →
      pixelOffset w y x + c = pixelOffset w y' x' + c' → y = y' ∧ x = x' ∧ c = c') ∧
    (∀ y k y' k', k < rowPadding w → k' < rowPadding w → padOffset w y k = padOffset w y' k' →
      y = y' ∧ k = k') ∧
    (∀ y x c y' k, x < w → c < 3 → k < rowPadding w → pixelOffset w y x + c ≠ padOffset w y' k)

/-- R111: `WAIT` repeats its read while `BUSY = 1` and ends at the first read of 0 in bit 0; `DUMP DST` reads
`DST_LEN` and then that many bytes. -/
def Obligations.WaitAndDumpExpandAsDefined : Prop :=
  ∀ s : State,
    (s.status.busy = true → runLine .wait s =
      .next { s with host := .wait :: s.host, results := statusWord s.status :: s.results }) ∧
    (s.status.busy = false → runLine .wait s =
      .next { s with results := statusWord s.status :: s.results }) ∧
    runLine .dump s = .next { s with
      host := (List.range s.dstLen.toNat).map (fun k => HostLine.rdb .dst k) ++ s.host
      results := s.dstLen :: s.results }

/-- R111: `LOAD SRC` stores its bytes from offset 0 and their count, and changes no other byte or register. -/
def Obligations.LoadStoresTheBytesAndTheirCount : Prop :=
  ∀ (s : State) (bs : List Byte) (rest : List HostLine), s.status.busy = false →
    bs.length ≤ s.params.srcBytes → s.host = loadLines bs ++ rest →
    ∃ t : State, Host.Core.run Sys2Proof.core (bs.length + 1) s = .next t ∧
      (∀ k (hk : k < bs.length), t.byteAt .src k = bs[k]) ∧
      (∀ k, bs.length ≤ k → t.byteAt .src k = s.byteAt .src k) ∧
      t = { s with src := t.src, srcLen := BitVec.ofNat 32 bs.length, host := rest }
end

