-- ==== Sys2Proof/Laws/State.lean ====
section
/-! SUPPORT. What each named update of the state leaves in each field, and that the updates leave the bytes of the
buffers they do not store to. -/

namespace Sys2Proof.Machine

variable (s : State)

/-! ### `s.setResults len w hgt pad` -/

@[simp] theorem State.setResults_status (len w hgt : Word) (pad : BitVec 2) : (s.setResults len w hgt pad).status = s.status := rfl
@[simp] theorem State.setResults_ie (len w hgt : Word) (pad : BitVec 2) : (s.setResults len w hgt pad).ie = s.ie := rfl
@[simp] theorem State.setResults_width (len w hgt : Word) (pad : BitVec 2) : (s.setResults len w hgt pad).width = s.width := rfl
@[simp] theorem State.setResults_height (len w hgt : Word) (pad : BitVec 2) : (s.setResults len w hgt pad).height = s.height := rfl
@[simp] theorem State.setResults_srcLen (len w hgt : Word) (pad : BitVec 2) : (s.setResults len w hgt pad).srcLen = s.srcLen := rfl
@[simp] theorem State.setResults_dstLen (len w hgt : Word) (pad : BitVec 2) : (s.setResults len w hgt pad).dstLen = len := rfl
@[simp] theorem State.setResults_outW (len w hgt : Word) (pad : BitVec 2) : (s.setResults len w hgt pad).outW = w := rfl
@[simp] theorem State.setResults_outH (len w hgt : Word) (pad : BitVec 2) : (s.setResults len w hgt pad).outH = hgt := rfl
@[simp] theorem State.setResults_outPad (len w hgt : Word) (pad : BitVec 2) : (s.setResults len w hgt pad).outPad = pad := rfl
@[simp] theorem State.setResults_src (len w hgt : Word) (pad : BitVec 2) : (s.setResults len w hgt pad).src = s.src := rfl
@[simp] theorem State.setResults_dst (len w hgt : Word) (pad : BitVec 2) : (s.setResults len w hgt pad).dst = s.dst := rfl
@[simp] theorem State.setResults_h (len w hgt : Word) (pad : BitVec 2) : (s.setResults len w hgt pad).h = s.h := rfl
@[simp] theorem State.setResults_params (len w hgt : Word) (pad : BitVec 2) : (s.setResults len w hgt pad).params = s.params := rfl
@[simp] theorem State.setResults_resets (len w hgt : Word) (pad : BitVec 2) : (s.setResults len w hgt pad).resets = s.resets := rfl
@[simp] theorem State.setResults_freeUses (len w hgt : Word) (pad : BitVec 2) : (s.setResults len w hgt pad).freeUses = s.freeUses := rfl
@[simp] theorem State.setResults_host (len w hgt : Word) (pad : BitVec 2) : (s.setResults len w hgt pad).host = s.host := rfl
@[simp] theorem State.setResults_sched (len w hgt : Word) (pad : BitVec 2) : (s.setResults len w hgt pad).sched = s.sched := rfl
@[simp] theorem State.setResults_results (len w hgt : Word) (pad : BitVec 2) : (s.setResults len w hgt pad).results = s.results := rfl

/-! ### `s.dropHidden` -/

@[simp] theorem State.dropHidden_status : (s.dropHidden).status = s.status := rfl
@[simp] theorem State.dropHidden_ie : (s.dropHidden).ie = s.ie := rfl
@[simp] theorem State.dropHidden_width : (s.dropHidden).width = s.width := rfl
@[simp] theorem State.dropHidden_height : (s.dropHidden).height = s.height := rfl
@[simp] theorem State.dropHidden_srcLen : (s.dropHidden).srcLen = s.srcLen := rfl
@[simp] theorem State.dropHidden_dstLen : (s.dropHidden).dstLen = s.dstLen := rfl
@[simp] theorem State.dropHidden_outW : (s.dropHidden).outW = s.outW := rfl
@[simp] theorem State.dropHidden_outH : (s.dropHidden).outH = s.outH := rfl
@[simp] theorem State.dropHidden_outPad : (s.dropHidden).outPad = s.outPad := rfl
@[simp] theorem State.dropHidden_src : (s.dropHidden).src = s.src := rfl
@[simp] theorem State.dropHidden_dst : (s.dropHidden).dst = s.dst := rfl
@[simp] theorem State.dropHidden_h : (s.dropHidden).h = deadHidden s.freeUses := rfl
@[simp] theorem State.dropHidden_params : (s.dropHidden).params = s.params := rfl
@[simp] theorem State.dropHidden_resets : (s.dropHidden).resets = s.resets := rfl
@[simp] theorem State.dropHidden_freeUses : (s.dropHidden).freeUses = s.freeUses + 1 := rfl
@[simp] theorem State.dropHidden_host : (s.dropHidden).host = s.host := rfl
@[simp] theorem State.dropHidden_sched : (s.dropHidden).sched = s.sched := rfl
@[simp] theorem State.dropHidden_results : (s.dropHidden).results = s.results := rfl

/-! ### `s.startOperation op filt` -/

@[simp] theorem State.startOperation_status (op : Op) (filt : Filt) : (s.startOperation op filt).status = statusBusy := rfl
@[simp] theorem State.startOperation_ie (op : Op) (filt : Filt) : (s.startOperation op filt).ie = s.ie := rfl
@[simp] theorem State.startOperation_width (op : Op) (filt : Filt) : (s.startOperation op filt).width = s.width := rfl
@[simp] theorem State.startOperation_height (op : Op) (filt : Filt) : (s.startOperation op filt).height = s.height := rfl
@[simp] theorem State.startOperation_srcLen (op : Op) (filt : Filt) : (s.startOperation op filt).srcLen = s.srcLen := rfl
@[simp] theorem State.startOperation_dstLen (op : Op) (filt : Filt) : (s.startOperation op filt).dstLen = 0 := rfl
@[simp] theorem State.startOperation_outW (op : Op) (filt : Filt) : (s.startOperation op filt).outW = 0 := rfl
@[simp] theorem State.startOperation_outH (op : Op) (filt : Filt) : (s.startOperation op filt).outH = 0 := rfl
@[simp] theorem State.startOperation_outPad (op : Op) (filt : Filt) : (s.startOperation op filt).outPad = 0 := rfl
@[simp] theorem State.startOperation_src (op : Op) (filt : Filt) : (s.startOperation op filt).src = s.src := rfl
@[simp] theorem State.startOperation_dst (op : Op) (filt : Filt) : (s.startOperation op filt).dst = s.dst := rfl
@[simp] theorem State.startOperation_h (op : Op) (filt : Filt) : (s.startOperation op filt).h = { s.h with op := op, filt := filt } := rfl
@[simp] theorem State.startOperation_params (op : Op) (filt : Filt) : (s.startOperation op filt).params = s.params := rfl
@[simp] theorem State.startOperation_resets (op : Op) (filt : Filt) : (s.startOperation op filt).resets = s.resets := rfl
@[simp] theorem State.startOperation_freeUses (op : Op) (filt : Filt) : (s.startOperation op filt).freeUses = s.freeUses := rfl
@[simp] theorem State.startOperation_host (op : Op) (filt : Filt) : (s.startOperation op filt).host = s.host := rfl
@[simp] theorem State.startOperation_sched (op : Op) (filt : Filt) : (s.startOperation op filt).sched = s.sched := rfl
@[simp] theorem State.startOperation_results (op : Op) (filt : Filt) : (s.startOperation op filt).results = s.results := rfl

/-! ### `s.reportError k` -/

@[simp] theorem State.reportError_status (k : ErrorKind) : (s.reportError k).status = statusError k := rfl
@[simp] theorem State.reportError_ie (k : ErrorKind) : (s.reportError k).ie = s.ie := rfl
@[simp] theorem State.reportError_width (k : ErrorKind) : (s.reportError k).width = s.width := rfl
@[simp] theorem State.reportError_height (k : ErrorKind) : (s.reportError k).height = s.height := rfl
@[simp] theorem State.reportError_srcLen (k : ErrorKind) : (s.reportError k).srcLen = s.srcLen := rfl
@[simp] theorem State.reportError_dstLen (k : ErrorKind) : (s.reportError k).dstLen = 0 := rfl
@[simp] theorem State.reportError_outW (k : ErrorKind) : (s.reportError k).outW = 0 := rfl
@[simp] theorem State.reportError_outH (k : ErrorKind) : (s.reportError k).outH = 0 := rfl
@[simp] theorem State.reportError_outPad (k : ErrorKind) : (s.reportError k).outPad = 0 := rfl
@[simp] theorem State.reportError_src (k : ErrorKind) : (s.reportError k).src = s.src := rfl
@[simp] theorem State.reportError_dst (k : ErrorKind) : (s.reportError k).dst = s.dst := rfl
@[simp] theorem State.reportError_h (k : ErrorKind) : (s.reportError k).h = s.h := rfl
@[simp] theorem State.reportError_params (k : ErrorKind) : (s.reportError k).params = s.params := rfl
@[simp] theorem State.reportError_resets (k : ErrorKind) : (s.reportError k).resets = s.resets := rfl
@[simp] theorem State.reportError_freeUses (k : ErrorKind) : (s.reportError k).freeUses = s.freeUses := rfl
@[simp] theorem State.reportError_host (k : ErrorKind) : (s.reportError k).host = s.host := rfl
@[simp] theorem State.reportError_sched (k : ErrorKind) : (s.reportError k).sched = s.sched := rfl
@[simp] theorem State.reportError_results (k : ErrorKind) : (s.reportError k).results = s.results := rfl

/-! ### `s.acknowledge` -/

@[simp] theorem State.acknowledge_status : (s.acknowledge).status = Status.idle := rfl
@[simp] theorem State.acknowledge_ie : (s.acknowledge).ie = s.ie := rfl
@[simp] theorem State.acknowledge_width : (s.acknowledge).width = s.width := rfl
@[simp] theorem State.acknowledge_height : (s.acknowledge).height = s.height := rfl
@[simp] theorem State.acknowledge_srcLen : (s.acknowledge).srcLen = s.srcLen := rfl
@[simp] theorem State.acknowledge_dstLen : (s.acknowledge).dstLen = s.dstLen := rfl
@[simp] theorem State.acknowledge_outW : (s.acknowledge).outW = s.outW := rfl
@[simp] theorem State.acknowledge_outH : (s.acknowledge).outH = s.outH := rfl
@[simp] theorem State.acknowledge_outPad : (s.acknowledge).outPad = s.outPad := rfl
@[simp] theorem State.acknowledge_src : (s.acknowledge).src = s.src := rfl
@[simp] theorem State.acknowledge_dst : (s.acknowledge).dst = s.dst := rfl
@[simp] theorem State.acknowledge_h : (s.acknowledge).h = s.h := rfl
@[simp] theorem State.acknowledge_params : (s.acknowledge).params = s.params := rfl
@[simp] theorem State.acknowledge_resets : (s.acknowledge).resets = s.resets := rfl
@[simp] theorem State.acknowledge_freeUses : (s.acknowledge).freeUses = s.freeUses := rfl
@[simp] theorem State.acknowledge_host : (s.acknowledge).host = s.host := rfl
@[simp] theorem State.acknowledge_sched : (s.acknowledge).sched = s.sched := rfl
@[simp] theorem State.acknowledge_results : (s.acknowledge).results = s.results := rfl

/-! ### `s.reportSuccess o` -/

@[simp] theorem State.reportSuccess_status (o : Output) : (s.reportSuccess o).status = statusSuccess := rfl
@[simp] theorem State.reportSuccess_ie (o : Output) : (s.reportSuccess o).ie = s.ie := rfl
@[simp] theorem State.reportSuccess_width (o : Output) : (s.reportSuccess o).width = s.width := rfl
@[simp] theorem State.reportSuccess_height (o : Output) : (s.reportSuccess o).height = s.height := rfl
@[simp] theorem State.reportSuccess_srcLen (o : Output) : (s.reportSuccess o).srcLen = s.srcLen := rfl
@[simp] theorem State.reportSuccess_dstLen (o : Output) : (s.reportSuccess o).dstLen = BitVec.ofNat 32 o.len := rfl
@[simp] theorem State.reportSuccess_outW (o : Output) : (s.reportSuccess o).outW = BitVec.ofNat 32 o.width := rfl
@[simp] theorem State.reportSuccess_outH (o : Output) : (s.reportSuccess o).outH = BitVec.ofNat 32 o.height := rfl
@[simp] theorem State.reportSuccess_outPad (o : Output) : (s.reportSuccess o).outPad = BitVec.ofNat 2 o.pad := rfl
@[simp] theorem State.reportSuccess_src (o : Output) : (s.reportSuccess o).src = s.src := rfl
@[simp] theorem State.reportSuccess_dst (o : Output) : (s.reportSuccess o).dst = o.dst := rfl
@[simp] theorem State.reportSuccess_h (o : Output) : (s.reportSuccess o).h = s.h := rfl
@[simp] theorem State.reportSuccess_params (o : Output) : (s.reportSuccess o).params = s.params := rfl
@[simp] theorem State.reportSuccess_resets (o : Output) : (s.reportSuccess o).resets = s.resets := rfl
@[simp] theorem State.reportSuccess_freeUses (o : Output) : (s.reportSuccess o).freeUses = s.freeUses := rfl
@[simp] theorem State.reportSuccess_host (o : Output) : (s.reportSuccess o).host = s.host := rfl
@[simp] theorem State.reportSuccess_sched (o : Output) : (s.reportSuccess o).sched = s.sched := rfl
@[simp] theorem State.reportSuccess_results (o : Output) : (s.reportSuccess o).results = s.results := rfl

/-! ### `s.resetBlock` -/

@[simp] theorem State.resetBlock_status : (s.resetBlock).status = Status.idle := rfl
@[simp] theorem State.resetBlock_ie : (s.resetBlock).ie = false := rfl
@[simp] theorem State.resetBlock_width : (s.resetBlock).width = 0 := rfl
@[simp] theorem State.resetBlock_height : (s.resetBlock).height = 0 := rfl
@[simp] theorem State.resetBlock_srcLen : (s.resetBlock).srcLen = 0 := rfl
@[simp] theorem State.resetBlock_dstLen : (s.resetBlock).dstLen = 0 := rfl
@[simp] theorem State.resetBlock_outW : (s.resetBlock).outW = 0 := rfl
@[simp] theorem State.resetBlock_outH : (s.resetBlock).outH = 0 := rfl
@[simp] theorem State.resetBlock_outPad : (s.resetBlock).outPad = 0 := rfl
@[simp] theorem State.resetBlock_src : (s.resetBlock).src = [] := rfl
@[simp] theorem State.resetBlock_dst : (s.resetBlock).dst = [] := rfl
@[simp] theorem State.resetBlock_h : (s.resetBlock).h = deadHidden s.freeUses := rfl
@[simp] theorem State.resetBlock_params : (s.resetBlock).params = s.params := rfl
@[simp] theorem State.resetBlock_resets : (s.resetBlock).resets = s.resets + 1 := rfl
@[simp] theorem State.resetBlock_freeUses : (s.resetBlock).freeUses = s.freeUses + 1 := rfl
@[simp] theorem State.resetBlock_host : (s.resetBlock).host = s.host := rfl
@[simp] theorem State.resetBlock_sched : (s.resetBlock).sched = s.sched := rfl
@[simp] theorem State.resetBlock_results : (s.resetBlock).results = s.results := rfl

/-! ### `s.pushResult v` -/

@[simp] theorem State.pushResult_status (v : Word) : (s.pushResult v).status = s.status := rfl
@[simp] theorem State.pushResult_ie (v : Word) : (s.pushResult v).ie = s.ie := rfl
@[simp] theorem State.pushResult_width (v : Word) : (s.pushResult v).width = s.width := rfl
@[simp] theorem State.pushResult_height (v : Word) : (s.pushResult v).height = s.height := rfl
@[simp] theorem State.pushResult_srcLen (v : Word) : (s.pushResult v).srcLen = s.srcLen := rfl
@[simp] theorem State.pushResult_dstLen (v : Word) : (s.pushResult v).dstLen = s.dstLen := rfl
@[simp] theorem State.pushResult_outW (v : Word) : (s.pushResult v).outW = s.outW := rfl
@[simp] theorem State.pushResult_outH (v : Word) : (s.pushResult v).outH = s.outH := rfl
@[simp] theorem State.pushResult_outPad (v : Word) : (s.pushResult v).outPad = s.outPad := rfl
@[simp] theorem State.pushResult_src (v : Word) : (s.pushResult v).src = s.src := rfl
@[simp] theorem State.pushResult_dst (v : Word) : (s.pushResult v).dst = s.dst := rfl
@[simp] theorem State.pushResult_h (v : Word) : (s.pushResult v).h = s.h := rfl
@[simp] theorem State.pushResult_params (v : Word) : (s.pushResult v).params = s.params := rfl
@[simp] theorem State.pushResult_resets (v : Word) : (s.pushResult v).resets = s.resets := rfl
@[simp] theorem State.pushResult_freeUses (v : Word) : (s.pushResult v).freeUses = s.freeUses := rfl
@[simp] theorem State.pushResult_host (v : Word) : (s.pushResult v).host = s.host := rfl
@[simp] theorem State.pushResult_sched (v : Word) : (s.pushResult v).sched = s.sched := rfl
@[simp] theorem State.pushResult_results (v : Word) : (s.pushResult v).results = v :: s.results := rfl

/-! ### `s.takeTurn` -/

@[simp] theorem State.takeTurn_status : (s.takeTurn).status = s.status := by
  unfold State.takeTurn; split <;> simp_all
@[simp] theorem State.takeTurn_ie : (s.takeTurn).ie = s.ie := by
  unfold State.takeTurn; split <;> simp_all
@[simp] theorem State.takeTurn_width : (s.takeTurn).width = s.width := by
  unfold State.takeTurn; split <;> simp_all
@[simp] theorem State.takeTurn_height : (s.takeTurn).height = s.height := by
  unfold State.takeTurn; split <;> simp_all
@[simp] theorem State.takeTurn_srcLen : (s.takeTurn).srcLen = s.srcLen := by
  unfold State.takeTurn; split <;> simp_all
@[simp] theorem State.takeTurn_dstLen : (s.takeTurn).dstLen = s.dstLen := by
  unfold State.takeTurn; split <;> simp_all
@[simp] theorem State.takeTurn_outW : (s.takeTurn).outW = s.outW := by
  unfold State.takeTurn; split <;> simp_all
@[simp] theorem State.takeTurn_outH : (s.takeTurn).outH = s.outH := by
  unfold State.takeTurn; split <;> simp_all
@[simp] theorem State.takeTurn_outPad : (s.takeTurn).outPad = s.outPad := by
  unfold State.takeTurn; split <;> simp_all
@[simp] theorem State.takeTurn_src : (s.takeTurn).src = s.src := by
  unfold State.takeTurn; split <;> simp_all
@[simp] theorem State.takeTurn_dst : (s.takeTurn).dst = s.dst := by
  unfold State.takeTurn; split <;> simp_all
@[simp] theorem State.takeTurn_h : (s.takeTurn).h = s.h := by
  unfold State.takeTurn; split <;> simp_all
@[simp] theorem State.takeTurn_params : (s.takeTurn).params = s.params := by
  unfold State.takeTurn; split <;> simp_all
@[simp] theorem State.takeTurn_resets : (s.takeTurn).resets = s.resets := by
  unfold State.takeTurn; split <;> simp_all
@[simp] theorem State.takeTurn_freeUses : (s.takeTurn).freeUses = s.freeUses := by
  unfold State.takeTurn; split <;> simp_all
@[simp] theorem State.takeTurn_host : (s.takeTurn).host = s.host := by
  unfold State.takeTurn; split <;> simp_all
@[simp] theorem State.takeTurn_sched : (s.takeTurn).sched = if s.status.busy then s.sched.tail else s.sched := by
  unfold State.takeTurn; split <;> simp_all
@[simp] theorem State.takeTurn_results : (s.takeTurn).results = s.results := by
  unfold State.takeTurn; split <;> simp_all

/-! ### `s.afterFetch` -/

@[simp] theorem State.afterFetch_status : (s.afterFetch).status = s.status := by
  simp [State.afterFetch]
@[simp] theorem State.afterFetch_ie : (s.afterFetch).ie = s.ie := by
  simp [State.afterFetch]
@[simp] theorem State.afterFetch_width : (s.afterFetch).width = s.width := by
  simp [State.afterFetch]
@[simp] theorem State.afterFetch_height : (s.afterFetch).height = s.height := by
  simp [State.afterFetch]
@[simp] theorem State.afterFetch_srcLen : (s.afterFetch).srcLen = s.srcLen := by
  simp [State.afterFetch]
@[simp] theorem State.afterFetch_dstLen : (s.afterFetch).dstLen = s.dstLen := by
  simp [State.afterFetch]
@[simp] theorem State.afterFetch_outW : (s.afterFetch).outW = s.outW := by
  simp [State.afterFetch]
@[simp] theorem State.afterFetch_outH : (s.afterFetch).outH = s.outH := by
  simp [State.afterFetch]
@[simp] theorem State.afterFetch_outPad : (s.afterFetch).outPad = s.outPad := by
  simp [State.afterFetch]
@[simp] theorem State.afterFetch_src : (s.afterFetch).src = s.src := by
  simp [State.afterFetch]
@[simp] theorem State.afterFetch_dst : (s.afterFetch).dst = s.dst := by
  simp [State.afterFetch]
@[simp] theorem State.afterFetch_h : (s.afterFetch).h = s.h := by
  simp [State.afterFetch]
@[simp] theorem State.afterFetch_params : (s.afterFetch).params = s.params := by
  simp [State.afterFetch]
@[simp] theorem State.afterFetch_resets : (s.afterFetch).resets = s.resets := by
  simp [State.afterFetch]
@[simp] theorem State.afterFetch_freeUses : (s.afterFetch).freeUses = s.freeUses := by
  simp [State.afterFetch]
@[simp] theorem State.afterFetch_host : (s.afterFetch).host = s.host.tail := by
  simp [State.afterFetch]
@[simp] theorem State.afterFetch_sched : (s.afterFetch).sched = if s.status.busy then s.sched.tail else s.sched := by
  simp [State.afterFetch]
@[simp] theorem State.afterFetch_results : (s.afterFetch).results = s.results := by
  simp [State.afterFetch]

/-! ### The bytes of the buffers -/

theorem State.byteAt_congr (s t : State) (sp : Space) (a : Nat) (hb : s.buffer sp = t.buffer sp)
    (hr : s.resets = t.resets) : s.byteAt sp a = t.byteAt sp a := by
  simp [State.byteAt, hb, hr]

@[simp] theorem State.buffer_src : s.buffer .src = s.src := rfl
@[simp] theorem State.buffer_dst : s.buffer .dst = s.dst := rfl

@[simp] theorem State.dropHidden_byteAt (sp : Space) (a : Nat) : s.dropHidden.byteAt sp a = s.byteAt sp a := by
  cases sp <;> rfl

@[simp] theorem State.startOperation_byteAt (op : Op) (filt : Filt) (sp : Space) (a : Nat) :
    (s.startOperation op filt).byteAt sp a = s.byteAt sp a := by
  cases sp <;> rfl

@[simp] theorem State.reportError_byteAt (k : ErrorKind) (sp : Space) (a : Nat) :
    (s.reportError k).byteAt sp a = s.byteAt sp a := by
  cases sp <;> rfl

@[simp] theorem State.acknowledge_byteAt (sp : Space) (a : Nat) : s.acknowledge.byteAt sp a = s.byteAt sp a := by
  cases sp <;> rfl

@[simp] theorem State.reportSuccess_byteAt_src (o : Output) (a : Nat) :
    (s.reportSuccess o).byteAt .src a = s.byteAt .src a := rfl

@[simp] theorem State.pushResult_byteAt (v : Word) (sp : Space) (a : Nat) :
    (s.pushResult v).byteAt sp a = s.byteAt sp a := by
  cases sp <;> rfl

/-- After a reset no byte is stored: each reads as the unspecified byte of the new epoch (R41, R320). -/
theorem State.resetBlock_byteAt (sp : Space) (a : Nat) :
    s.resetBlock.byteAt sp a = Config.resetByte (s.resets + 1) sp a := by
  cases sp <;> rfl

end Sys2Proof.Machine
end

