-- ==== Sys2Proof/Laws/Memory.lean ====
section
/-! SUPPORT. Laws of the buffers: read after write, the canonical form, the bounds of what is stored, and the
little-endian primitives of R14. -/

namespace Sys2Proof.Machine

/-! ### One byte -/

@[simp] theorem lookup_store_same (m : Memory) (a : Nat) (v : Byte) : lookup (store m a v) a = some v := by
  induction m with
  | nil => simp [store, lookup]
  | cons c m ih =>
    obtain ⟨k, b⟩ := c
    unfold store
    split
    · simp [lookup]
    · split
      · simp_all [lookup]
      · rename_i h1 h2
        simp [lookup, ih, Ne.symm h2]

theorem lookup_store_other (m : Memory) (a a' : Nat) (v : Byte) (h : a' ≠ a) :
    lookup (store m a v) a' = lookup m a' := by
  induction m with
  | nil => simp [store, lookup, Ne.symm h]
  | cons c m ih =>
    obtain ⟨k, b⟩ := c
    unfold store
    split
    · simp [lookup, Ne.symm h]
    · split
      · rename_i h1 h2
        subst h2
        simp [lookup, Ne.symm h]
      · simp [lookup, ih]

/-- What a store leaves at every address. -/
theorem lookup_store (m : Memory) (a a' : Nat) (v : Byte) :
    lookup (store m a v) a' = if a' = a then some v else lookup m a' := by
  split
  · rename_i h; subst h; simp
  · rename_i h; exact lookup_store_other m a a' v h

/-- The addresses a store leaves entries at. -/
theorem mem_store (m : Memory) (a : Nat) (v : Byte) (c : Host.Cell) (h : c ∈ store m a v) :
    c = (a, v) ∨ c ∈ m := by
  induction m with
  | nil => simpa [store] using h
  | cons d m ih =>
    obtain ⟨k, b⟩ := d
    unfold store at h
    split at h
    · simpa using h
    · split at h
      · rename_i h1 h2
        subst h2
        rcases List.mem_cons.mp h with h | h
        · exact .inl h
        · exact .inr (List.mem_cons_of_mem _ h)
      · rcases List.mem_cons.mp h with h | h
        · exact .inr (h ▸ List.mem_cons_self)
        · rcases ih h with h | h
          · exact .inl h
          · exact .inr (List.mem_cons_of_mem _ h)

/-- A store keeps the canonical form. -/
theorem store_wf (m : Memory) (a : Nat) (v : Byte) (h : Memory.wf m) : Memory.wf (store m a v) := by
  induction m with
  | nil => simp [store]
  | cons d m ih =>
    obtain ⟨k, b⟩ := d
    have hm := (List.pairwise_cons.mp h)
    unfold store
    split
    · rename_i h1
      refine List.pairwise_cons.mpr ⟨?_, h⟩
      intro c hc
      rcases List.mem_cons.mp hc with hc | hc
      · subst hc; exact h1
      · exact Nat.lt_trans h1 (hm.1 c hc)
    · split
      · exact List.pairwise_cons.mpr ⟨hm.1, hm.2⟩
      · rename_i h1 h2
        refine List.pairwise_cons.mpr ⟨?_, ih hm.2⟩
        intro c hc
        rcases mem_store m a v c hc with hc | hc
        · subst hc; simp only; omega
        · exact hm.1 c hc

/-- Every entry lies below a bound. -/
def Below (n : Nat) (m : Memory) : Prop := ∀ c ∈ m, c.1 < n

theorem store_below (m : Memory) (a n : Nat) (v : Byte) (h : Below n m) (ha : a < n) : Below n (store m a v) := by
  intro c hc
  rcases mem_store m a v c hc with hc | hc
  · subst hc; exact ha
  · exact h c hc

/-- Two buffers with one canonical form each and the same stored byte at every address are the same data. -/
theorem memory_ext (m m' : Memory) (h : Memory.wf m) (h' : Memory.wf m')
    (he : ∀ a, lookup m a = lookup m' a) : m = m' := by
  have none_below : ∀ (l : Memory) (a : Nat), (∀ c ∈ l, a < c.1) → lookup l a = none := by
    intro l a
    induction l with
    | nil => intro _; rfl
    | cons d l ih =>
      obtain ⟨k, b⟩ := d
      intro hl
      have hk : a < k := hl (k, b) List.mem_cons_self
      simp only [lookup]
      rw [if_neg (by omega)]
      exact ih (fun c hc => hl c (List.mem_cons_of_mem _ hc))
  induction m generalizing m' with
  | nil =>
    cases m' with
    | nil => rfl
    | cons d m' =>
      obtain ⟨k, b⟩ := d
      have := he k
      simp [lookup] at this
  | cons c m ih =>
    obtain ⟨k, b⟩ := c
    cases m' with
    | nil =>
      have := he k
      simp [lookup] at this
    | cons d m' =>
      obtain ⟨k', b'⟩ := d
      have hm := List.pairwise_cons.mp h
      have hm' := List.pairwise_cons.mp h'
      have hk : k = k' := by
        rcases Nat.lt_trichotomy k k' with hlt | heq | hgt
        · have := he k
          rw [none_below ((k', b') :: m') k] at this
          · simp [lookup] at this
          · intro c hc
            rcases List.mem_cons.mp hc with hc | hc
            · subst hc; exact hlt
            · exact Nat.lt_trans hlt (hm'.1 c hc)
        · exact heq
        · have := he k'
          rw [none_below ((k, b) :: m) k'] at this
          · simp [lookup] at this
          · intro c hc
            rcases List.mem_cons.mp hc with hc | hc
            · subst hc; exact hgt
            · exact Nat.lt_trans hgt (hm.1 c hc)
      subst hk
      have hb : b = b' := by have := he k; simpa [lookup] using this
      subst hb
      have := ih m' hm.2 hm'.2 (fun a => by
        by_cases ha : a = k
        · subst ha
          rw [none_below m a hm.1, none_below m' a hm'.1]
        · have := he a
          simpa [lookup, Ne.symm ha] using this)
      rw [this]

/-! ### The primitives of R14 -/

theorem storeLE_wf (m : Memory) (a n v : Nat) (h : Memory.wf m) : Memory.wf (storeLE m a n v) := by
  induction n generalizing m a v with
  | zero => exact h
  | succ n ih => exact ih _ _ _ (store_wf m a _ h)

theorem storeLE_below (m : Memory) (a n v b : Nat) (h : Below b m) (ha : a + n ≤ b) :
    Below b (storeLE m a n v) := by
  induction n generalizing m a v with
  | zero => exact h
  | succ n ih => exact ih _ _ _ (store_below m a b _ h (by omega)) (by omega)

/-- What `MemWrite` leaves outside its bytes. -/
theorem lookup_storeLE_other (m : Memory) (a n v x : Nat) (h : x < a ∨ a + n ≤ x) :
    lookup (storeLE m a n v) x = lookup m x := by
  induction n generalizing m a v with
  | zero => rfl
  | succ n ih =>
    rw [storeLE, ih _ _ _ (by omega), lookup_store_other _ _ _ _ (by omega)]

/-- What `MemWrite` leaves at its `k`-th byte. -/
theorem lookup_storeLE_at (m : Memory) (a n v k : Nat) (h : k < n) :
    lookup (storeLE m a n v) (a + k) = some (BitVec.ofNat 8 (v / 256 ^ k)) := by
  induction n generalizing m a v k with
  | zero => omega
  | succ n ih =>
    cases k with
    | zero =>
      rw [storeLE, lookup_storeLE_other _ _ _ _ _ (by omega)]
      simp
    | succ k =>
      have := ih (store m a (BitVec.ofNat 8 v)) (a + 1) (v / 256) k (by omega)
      rw [storeLE, show a + (k + 1) = a + 1 + k by omega, this, Nat.div_div_eq_div_mul,
        Nat.pow_succ, Nat.mul_comm]

theorem readLE_lt (rd : Nat → Byte) (a n : Nat) : readLE rd a n < 256 ^ n := by
  induction n generalizing a with
  | zero => simp [readLE]
  | succ n ih =>
    have h1 := ih (a + 1)
    have h2 := (rd a).isLt
    rw [readLE, Nat.pow_succ]
    omega

/-- `MemRead` depends on its bytes only. -/
theorem readLE_congr (rd rd' : Nat → Byte) (a n : Nat) (h : ∀ k < n, rd (a + k) = rd' (a + k)) :
    readLE rd a n = readLE rd' a n := by
  induction n generalizing a with
  | zero => rfl
  | succ n ih =>
    have h0 := h 0 (by omega)
    simp only [Nat.add_zero] at h0
    rw [readLE, readLE, h0, ih (a + 1) (fun k hk => by
      have := h (k + 1) (by omega)
      rwa [show a + (k + 1) = a + 1 + k by omega] at this)]

/-- Bytes that are those of a number read back as that number. -/
theorem readLE_of_bytes (rd : Nat → Byte) (a n v : Nat)
    (h : ∀ k < n, rd (a + k) = BitVec.ofNat 8 (v / 256 ^ k)) : readLE rd a n = v % 256 ^ n := by
  induction n generalizing a v with
  | zero => simp [readLE, Nat.mod_one]
  | succ n ih =>
    have h0 := h 0 (by omega)
    simp only [Nat.add_zero, Nat.pow_zero, Nat.div_one] at h0
    have := ih (a + 1) (v / 256) (fun k hk => by
      have := h (k + 1) (by omega)
      rw [show a + 1 + k = a + (k + 1) by omega, this, Nat.div_div_eq_div_mul, Nat.pow_succ, Nat.mul_comm])
    rw [readLE, h0, this, Nat.pow_succ, Nat.mul_comm (256 ^ n), Nat.mod_mul]
    simp

/-! ### Through the state -/

theorem State.byteAt_of_lookup (s : State) (sp : Space) (a : Nat) (b : Byte)
    (h : lookup (s.buffer sp) a = some b) : s.byteAt sp a = b := by
  simp [State.byteAt, h]

/-- What storing one byte leaves at every address of both buffers (R258). -/
theorem State.storeByte_byteAt (s : State) (sp sp' : Space) (a a' : Nat) (b : Byte) :
    (s.storeByte sp a b).byteAt sp' a' = if sp' = sp ∧ a' = a then b else s.byteAt sp' a' := by
  cases sp <;> cases sp' <;> by_cases h : a' = a <;>
    simp [State.storeByte, State.byteAt, State.buffer, lookup_store, h]

end Sys2Proof.Machine
end

