-- ==== Sys2Proof/Laws/Walk.lean ====
section
/-! SUPPORT. Laws of the two walks and of the serializer: every offset they store to lies inside the output
(R70, R288), and they keep the canonical form of the buffer. -/

namespace Sys2Proof.Machine

/-- A property that holds at the start and that each step of a fold over `0, 1, …, n - 1` keeps holds at its end. -/
theorem foldl_range_induct {α : Type} (P : α → Prop) (f : α → Nat → α) (n : Nat) (a : α) (h0 : P a)
    (hs : ∀ b i, i < n → P b → P (f b i)) : P ((List.range n).foldl f a) := by
  have : ∀ (l : List Nat) (b : α), (∀ i ∈ l, i < n) → P b → P (l.foldl f b) := by
    intro l
    induction l with
    | nil => intro b _ hb; exact hb
    | cons i l ih =>
      intro b hl hb
      exact ih (f b i) (fun j hj => hl j (List.mem_cons_of_mem _ hj)) (hs b i (hl i List.mem_cons_self) hb)
  exact this _ a (fun i hi => List.mem_range.mp hi) h0

/-! ### Offsets inside the layouts -/

theorem half_area (w h : Nat) (he : w % 2 = 0) : h * (w / 2) = w * h / 2 := by
  obtain ⟨k, rfl⟩ : ∃ k, w = 2 * k := ⟨w / 2, by omega⟩
  rw [Nat.mul_div_cancel_left _ (by omega), Nat.mul_assoc, Nat.mul_div_cancel_left _ (by omega), Nat.mul_comm]

theorem row_bound (r c n h : Nat) (hr : r < h) (hc : c < n) : r * n + c < h * n := by
  have : (r + 1) * n ≤ h * n := Nat.mul_le_mul_right n hr
  rw [Nat.add_mul] at this
  omega

theorem yOffset_lt (w h r x : Nat) (hr : r < h) (hx : x < w) : yOffset w r x < planarLen w h := by
  have := row_bound r x w h hr hx
  rw [Nat.mul_comm h w] at this
  unfold yOffset planarLen
  omega

theorem uOffset_lt (w h r c : Nat) (he : w % 2 = 0) (hr : r < h) (hc : c < w / 2) :
    uOffset w h r c < planarLen w h := by
  have := row_bound r c (w / 2) h hr hc
  rw [half_area w h he] at this
  unfold uOffset planarLen
  omega

theorem vOffset_lt (w h r c : Nat) (he : w % 2 = 0) (hr : r < h) (hc : c < w / 2) :
    vOffset w h r c < planarLen w h := by
  have := row_bound r c (w / 2) h hr hc
  rw [half_area w h he] at this
  unfold vOffset planarLen
  omega

theorem pixelOffset_lt (w h y x c : Nat) (hy : y < h) (hx : x < w) (hc : c < 3) :
    pixelOffset w y x + c < containerLen w h := by
  have := row_bound y (x * 3 + c) (stride w) h hy (by unfold stride; omega)
  rw [Nat.mul_comm h] at this
  unfold pixelOffset containerLen payloadLen
  omega

theorem padOffset_lt (w h y k : Nat) (hy : y < h) (hk : k < rowPadding w) :
    padOffset w y k < containerLen w h := by
  have := row_bound y (w * 3 + k) (stride w) h hy (by unfold stride; omega)
  rw [Nat.mul_comm h] at this
  unfold padOffset containerLen payloadLen
  omega

theorem hdrLen_le (w h n : Nat) (hn : containerLen w h ≤ n) : hdrLen ≤ n :=
  Nat.le_trans (Nat.le_add_right _ _) hn

/-! ### What the walks keep -/

/-- The canonical form, with every entry below a bound. -/
abbrev Good (n : Nat) (m : Memory) : Prop := Memory.wf m ∧ Below n m

theorem store_good (m : Memory) (a n : Nat) (v : Byte) (h : Good n m) (ha : a < n) : Good n (store m a v) :=
  ⟨store_wf m a v h.1, store_below m a n v h.2 ha⟩

theorem encPixel_good (rd : Nat → Byte) (filt : Filt) (w h y x n : Nat) (k : Walk) (he : w % 2 = 0)
    (hn : planarLen w h ≤ n) (hy : y < h) (hx : x < w) (hk : Good n k.dst) :
    Good n (encPixel rd filt w h y x k).dst := by
  have hr : h - 1 - y < h := by omega
  have hY := store_good _ _ n (fwd (packedPixel rd w y x)).y hk
    (Nat.lt_of_lt_of_le (yOffset_lt w h _ x hr hx) hn)
  unfold encPixel
  dsimp only
  split
  · have hc : x / 2 < w / 2 := by omega
    exact store_good _ _ n _ (store_good _ _ n _ hY (Nat.lt_of_lt_of_le (uOffset_lt w h _ _ he hr hc) hn))
      (Nat.lt_of_lt_of_le (vOffset_lt w h _ _ he hr hc) hn)
  · exact hY

theorem encPicture_good (rd : Nat → Byte) (filt : Filt) (w h n : Nat) (k : Walk) (he : w % 2 = 0)
    (hn : planarLen w h ≤ n) (hk : Good n k.dst) : Good n (encPicture rd filt w h k).dst := by
  refine foldl_range_induct (fun k : Walk => Good n k.dst) _ h k hk (fun k r hr hk => ?_)
  refine foldl_range_induct (fun k : Walk => Good n k.dst) _ w k hk (fun k x hx hk => ?_)
  exact encPixel_good rd filt w h _ x n k he hn (by omega) hx hk

theorem decPixel_good (rd : Nat → Byte) (w h i j n : Nat) (k : Walk) (hn : containerLen w h ≤ n)
    (hi : i < h) (hj : j < w) (hk : Good n k.dst) : Good n (decPixel rd w h i j k).dst := by
  have hb : ∀ c < 3, pixelOffset w (h - 1 - i) j + c < n := fun c hc =>
    Nat.lt_of_lt_of_le (pixelOffset_lt w h _ j c (by omega) hj hc) hn
  exact store_good _ _ n _ (store_good _ _ n _ (store_good _ _ n _ hk (hb 0 (by omega))) (hb 1 (by omega)))
    (hb 2 (by omega))

theorem storePadding_good (m : Memory) (w h y n : Nat) (hn : containerLen w h ≤ n) (hy : y < h)
    (hm : Good n m) : Good n (storePadding m w y) :=
  foldl_range_induct (Good n) _ _ m hm (fun m k hk hm =>
    store_good m _ n _ hm (Nat.lt_of_lt_of_le (padOffset_lt w h y k hy hk) hn))

theorem decPicture_good (rd : Nat → Byte) (w h n : Nat) (k : Walk) (hn : containerLen w h ≤ n)
    (hk : Good n k.dst) : Good n (decPicture rd w h k).dst := by
  refine foldl_range_induct (fun k : Walk => Good n k.dst) _ h k hk (fun k i hi hk => ?_)
  refine storePadding_good _ w h _ n hn (by omega) ?_
  exact foldl_range_induct (fun k : Walk => Good n k.dst) _ w k hk
    (fun k j hj hk => decPixel_good rd w h i j n k hn hi hj hk)

theorem decPicture_good_of (rd : Nat → Byte) (w h n : Nat) (m : Memory) (hid : Hidden)
    (hn : containerLen w h ≤ n) (hm : Good n m) : Good n (decPicture rd w h { dst := m, h := hid }).dst :=
  decPicture_good rd w h n { dst := m, h := hid } hn hm

theorem serializeHeader_good (m : Memory) (w h n : Nat) (hn : hdrLen ≤ n) (hm : Good n m) :
    Good n (serializeHeader m w h) := by
  have : ∀ (l : List Field) (m : Memory), (∀ f ∈ l, f.1 + f.2.1 ≤ hdrLen) → Good n m →
      Good n (l.foldl (fun m f => storeLE m f.1 f.2.1 f.2.2) m) := by
    intro l
    induction l with
    | nil => intro m _ hm; exact hm
    | cons f l ih =>
      intro m hl hm
      have hf := hl f List.mem_cons_self
      exact ih _ (fun g hg => hl g (List.mem_cons_of_mem _ hg))
        ⟨storeLE_wf m _ _ _ hm.1, storeLE_below m _ _ _ _ hm.2 (by omega)⟩
  refine this _ m ?_ hm
  simp [headerFields, hdrLen]

end Sys2Proof.Machine
end

