-- ==== Sys2Proof/Laws/Checks.lean ====
section
/-! SUPPORT. What the checks of an operation can answer (R151, R171, R201), once, and the outcomes of a run. -/

namespace Sys2Proof.Machine

/-- The dimensions a check lets through (R157): positive, the width even, both below 2^31 where they come from
32 bits, the padding that of the width. -/
structure Dims.Good (d : Dims) : Prop where
  width_pos : 0 < d.width
  height_pos : 0 < d.height
  width_even : d.width % 2 = 0
  pad_eq : d.pad = rowPadding d.width

theorem dimsOf_good (w h : Int) (hb : ¬ badDimensions w h) : (dimsOf w h).Good := by
  simp only [badDimensions, not_or, not_le, not_not] at hb
  exact ⟨by simp only [dimsOf]; omega, by simp only [dimsOf]; omega, by simp only [dimsOf]; omega, rfl⟩

theorem parse_ok (rd : Nat → Byte) (d : Dims) (h : parse rd = .ok d) :
    ¬ badFormat rd ∧ ¬ badDimensions (headerWidth rd) (headerHeight rd) ∧
      d = dimsOf (headerWidth rd) (headerHeight rd) := by
  unfold parse at h
  split at h
  · cases h
  · split at h
    · cases h
    · exact ⟨‹_›, ‹_›, (Except.ok.inj h).symm⟩

theorem parse_error (rd : Nat → Byte) (k : ErrorKind) (h : parse rd = .error k) :
    (k = .unsupportedFormat ∧ badFormat rd) ∨
      (k = .invalidDimensions ∧ ¬ badFormat rd ∧ badDimensions (headerWidth rd) (headerHeight rd)) := by
  unfold parse at h
  split at h
  · exact .inl ⟨(Except.error.inj h).symm, ‹_›⟩
  · split at h
    · exact .inr ⟨(Except.error.inj h).symm, ‹_›, ‹_›⟩
    · cases h

theorem encChecks_ok (p : Params) (n : Nat) (rd : Nat → Byte) (d : Dims) (h : encChecks p n rd = .ok d) :
    hdrLen ≤ n ∧ parse rd = .ok d ∧ containerLen d.width d.height ≤ n ∧
      containerLen d.width d.height ≤ p.srcBytes ∧ planarLen d.width d.height ≤ p.dstBytes := by
  unfold encChecks at h
  split at h
  · cases h
  · split at h
    · cases h
    · rename_i hp
      split at h
      · cases h
      · split at h
        · cases h
        · rename_i h1 _ _ h2 h3
          cases h
          simp only [not_or] at h3
          exact ⟨by omega, hp, by omega, by omega, by omega⟩

theorem decChecks_ok (p : Params) (n : Nat) (w h : Int) (d : Dims) (hc : decChecks p n w h = .ok d) :
    ¬ badDimensions w h ∧ d = dimsOf w h ∧ n = planarLen d.width d.height ∧
      planarLen d.width d.height ≤ p.srcBytes ∧ containerLen d.width d.height ≤ p.dstBytes := by
  unfold decChecks at hc
  split at hc
  · cases hc
  · dsimp only at hc
    split at hc
    · cases hc
    · split at hc
      · cases hc
      · rename_i h1 h2 h3
        cases hc
        simp only [not_or] at h3
        exact ⟨h1, rfl, by omega, by omega, by omega⟩

/-- No operation ends with `IllegalCommand` (R289). -/
theorem encChecks_error (p : Params) (n : Nat) (rd : Nat → Byte) (k : ErrorKind)
    (h : encChecks p n rd = .error k) : k ≠ .illegalCommand := by
  unfold encChecks at h
  split at h
  · cases h; simp
  · split at h
    · rename_i hp
      cases h
      rcases parse_error rd k hp with h | h <;> simp [h.1]
    · split at h
      · cases h; simp
      · split at h
        · cases h; simp
        · cases h

theorem decChecks_error (p : Params) (n : Nat) (w h : Int) (k : ErrorKind)
    (hc : decChecks p n w h = .error k) : k ≠ .illegalCommand := by
  unfold decChecks at hc
  split at hc
  · cases hc; simp
  · dsimp only at hc
    split at hc
    · cases hc; simp
    · split at hc
      · cases hc; simp
      · cases hc

/-- What a successful `ENC` produced. -/
theorem runEnc_ok (filt : Filt) (s : State) (o : Output) (h : runEnc filt s = .ok o) :
    ∃ d, encChecks s.params s.srcLenOperand s.srcReader = .ok d ∧ d.Good ∧
      o = { dst := (encPicture s.srcReader filt d.width d.height { dst := s.dst, h := s.h }).dst
            len := planarLen d.width d.height, width := d.width, height := d.height, pad := d.pad } := by
  unfold runEnc at h
  split at h
  · cases h
  · rename_i d hd
    refine ⟨d, hd, ?_, (Except.ok.inj h).symm⟩
    obtain ⟨-, hp, -⟩ := encChecks_ok _ _ _ _ hd
    obtain ⟨-, hb, rfl⟩ := parse_ok _ _ hp
    exact dimsOf_good _ _ hb

/-- What a successful `DEC` produced. -/
theorem runDec_ok (s : State) (o : Output) (h : runDec s = .ok o) :
    ∃ d, decChecks s.params s.srcLenOperand s.widthOperand s.heightOperand = .ok d ∧ d.Good ∧
      o = { dst := (decPicture s.srcReader d.width d.height
                      { dst := serializeHeader s.dst d.width d.height, h := s.h }).dst
            len := containerLen d.width d.height, width := d.width, height := d.height, pad := d.pad } := by
  unfold runDec at h
  split at h
  · cases h
  · rename_i d hd
    have hc := decChecks_ok _ _ _ _ _ hd
    exact ⟨d, hd, hc.2.1 ▸ dimsOf_good _ _ hc.1, (Except.ok.inj h).symm⟩

/-- A successful `ENC` keeps the canonical form of `DST` and stores below its capacity. -/
theorem runEnc_good (filt : Filt) (s : State) (o : Output) (h : runEnc filt s = .ok o)
    (hs : Good s.params.dstBytes s.dst) : Good s.params.dstBytes o.dst ∧ o.len ≤ s.params.dstBytes := by
  obtain ⟨d, hd, hg, rfl⟩ := runEnc_ok filt s o h
  obtain ⟨-, -, -, -, hcap⟩ := encChecks_ok _ _ _ _ hd
  exact ⟨encPicture_good _ filt d.width d.height _ _ hg.width_even hcap hs, hcap⟩

/-- A successful `DEC` keeps the canonical form of `DST` and stores below its capacity. -/
theorem runDec_good (s : State) (o : Output) (h : runDec s = .ok o)
    (hs : Good s.params.dstBytes s.dst) : Good s.params.dstBytes o.dst ∧ o.len ≤ s.params.dstBytes := by
  obtain ⟨d, hd, hg, rfl⟩ := runDec_ok s o h
  obtain ⟨-, -, -, -, hcap⟩ := decChecks_ok _ _ _ _ _ hd
  have hh := hdrLen_le _ _ _ hcap
  have hser := serializeHeader_good s.dst d.width d.height s.params.dstBytes hh hs
  exact ⟨decPicture_good_of s.srcReader d.width d.height s.params.dstBytes _ s.h hcap hser, hcap⟩

end Sys2Proof.Machine
end

