-- ==== Sys2Proof/Laws/PerInstr.lean ====
section
/-! SUPPORT. Statements about every command as syntax, one lemma per constructor. -/

namespace Sys2Proof.Laws

/-- The word of a command has its `OP` and `FILT` fields where R101 puts them, and zeros elsewhere. -/
def WordFields.Statement (i : Instr) : Prop :=
  opField (encode i) = opCode i ∧ filtField (encode i) = filtCode i ∧
    reservedLow (encode i) = 0 ∧ reservedHigh (encode i) = 0

theorem WordFields.clr : WordFields.Statement .clr := by unfold WordFields.Statement; decide
theorem WordFields.encAvg : WordFields.Statement .encAvg := by unfold WordFields.Statement; decide
theorem WordFields.encDir : WordFields.Statement .encDir := by unfold WordFields.Statement; decide
theorem WordFields.dec : WordFields.Statement .dec := by unfold WordFields.Statement; decide

end Sys2Proof.Laws
end

