-- ==== Sys2Proof/Laws/Step.lean ====
section
/-! SUPPORT. What each shared operation, each host line and a step can do, said once. -/

namespace Sys2Proof.Machine

/-- The end of an operation: an error reported or a success reported, and the hidden registers dropped (R254). -/
theorem finish_cases (s : State) (r : Except ErrorKind Output) :
    (∃ k, r = .error k ∧ s.finish r = (s.reportError k).dropHidden) ∨
    (∃ o, r = .ok o ∧ s.finish r = (s.reportSuccess o).dropHidden) := by
  cases r with
  | error k => exact .inl ⟨k, rfl, rfl⟩
  | ok o => exact .inr ⟨o, rfl, rfl⟩

/-- The pending operation's run, as `complete` chooses it (R254). -/
def pendingRun (s : State) : Except ErrorKind Output :=
  match s.h.op with
  | .enc => runEnc s.h.filt s
  | .dec => runDec s

theorem complete_eq (s : State) : complete s = s.finish (pendingRun s) := by
  unfold complete pendingRun
  cases s.h.op <;> cases s.h.filt <;> rfl

/-- A command while `BUSY = 1` (R252). -/
theorem whenIdle_busy (s : State) (f : State → State) (h : s.status.busy = true) : s.whenIdle f = s := by
  simp [State.whenIdle, h]

/-- A command while `BUSY = 0` (R250). -/
theorem whenIdle_idle (s : State) (f : State → State) (h : s.status.busy = false) : s.whenIdle f = f s := by
  simp [State.whenIdle, h]

/-- What the issue of a command can do (R250 to R252). -/
theorem exec_cases (i : Instr) (s t : State) (h : exec i s = .next t) :
    (s.status.busy = true ∧ t = s) ∨
    (s.status.busy = false ∧ i = .clr ∧ t = s.acknowledge) ∨
    (s.status.busy = false ∧ ∃ op filt, t = s.startOperation op filt) := by
  cases hb : s.status.busy <;>
    cases i <;>
    simp only [exec, execClr, execEncAvg, execEncDir, execDec, State.whenIdle, hb, Bool.false_eq_true,
      if_false, if_true, Host.Outcome.next.injEq] at h <;>
    subst h <;> simp

/-- What a write to `CMD` can do (R250 to R253). -/
theorem issueCommand_cases (w : Word) (s : State) :
    ∃ t, issueCommand w s = .next t ∧
      ((s.status.busy = true ∧ t = s) ∨
       (s.status.busy = false ∧ t = s.acknowledge) ∨
       (s.status.busy = false ∧ ∃ op filt, t = s.startOperation op filt) ∨
       (s.status.busy = false ∧ t = s.reportError .illegalCommand)) := by
  have hex : ∀ i, ∃ t, exec i s = .next t := by intro i; cases i <;> exact ⟨_, rfl⟩
  unfold issueCommand
  cases decode w with
  | ok i =>
    obtain ⟨t, ht⟩ := hex i
    refine ⟨t, ht, ?_⟩
    rcases exec_cases i s t ht with h | ⟨h, -, ht⟩ | h
    · exact .inl h
    · exact .inr (.inl ⟨h, ht⟩)
    · exact .inr (.inr (.inl h))
  | error e =>
    cases hb : s.status.busy
    · exact ⟨_, rfl, .inr (.inr (.inr ⟨rfl, whenIdle_idle s _ hb⟩))⟩
    · exact ⟨_, rfl, .inl ⟨rfl, whenIdle_busy s _ hb⟩⟩

/-- What one host line can do when it gives a next state. -/
theorem runLine_cases (l : HostLine) (s t : State) (h : runLine l s = .next t) :
    (∃ r, l = .rd r ∧ t = s.pushResult (s.readReg r)) ∨
    (∃ v, l = .wr .cmd v ∧ issueCommand v s = .next t) ∨
    (∃ v, l = .wr .ctrl v ∧ t = { s with ie := v.getLsbD 0 }) ∨
    (∃ v, l = .wr .width v ∧ t = s.whenIdle (fun t => { t with width := v })) ∨
    (∃ v, l = .wr .height v ∧ t = s.whenIdle (fun t => { t with height := v })) ∨
    (∃ v, l = .wr .srcLen v ∧ t = s.whenIdle (fun t => { t with srcLen := v })) ∨
    (∃ r v, l = .wr r v ∧ t = s) ∨
    (∃ sp off, l = .rdb sp off ∧ off < s.params.capacity sp ∧ t = s.readByte sp off) ∨
    (∃ sp off b, l = .wrb sp off b ∧ off < s.params.capacity sp ∧
      t = s.whenIdle (fun t => t.storeByte sp off b)) ∨
    (l = .reset ∧ t = s.resetBlock) ∨
    (l = .wait ∧ ∃ again : Bool,
      t = State.pushResult { s with host := if again then .wait :: s.host else s.host } (s.readReg .status)) ∨
    (l = .dump ∧
      t = State.pushResult { s with host := dumpLines (s.readReg .dstLen).toNat ++ s.host } (s.readReg .dstLen)) := by
  cases l with
  | rd r => simp only [runLine, Host.Outcome.next.injEq] at h; exact .inl ⟨r, rfl, h.symm⟩
  | wr r v =>
    simp only [runLine] at h
    cases r <;> simp only [writeReg, Host.Outcome.next.injEq] at h
    · exact .inr (.inl ⟨v, rfl, h⟩)
    · exact .inr (.inr (.inr (.inr (.inr (.inr (.inl ⟨_, v, rfl, h.symm⟩))))))
    · exact .inr (.inr (.inl ⟨v, rfl, h.symm⟩))
    · exact .inr (.inr (.inr (.inl ⟨v, rfl, h.symm⟩)))
    · exact .inr (.inr (.inr (.inr (.inl ⟨v, rfl, h.symm⟩))))
    · exact .inr (.inr (.inr (.inr (.inr (.inl ⟨v, rfl, h.symm⟩)))))
    all_goals exact .inr (.inr (.inr (.inr (.inr (.inr (.inl ⟨_, v, rfl, h.symm⟩))))))
  | rdb sp off =>
    simp only [runLine] at h
    split at h
    · cases h; exact .inr (.inr (.inr (.inr (.inr (.inr (.inr (.inl ⟨sp, off, rfl, ‹_›, rfl⟩)))))))
    · cases h
  | wrb sp off b =>
    simp only [runLine] at h
    split at h
    · cases h; exact .inr (.inr (.inr (.inr (.inr (.inr (.inr (.inr (.inl ⟨sp, off, b, rfl, ‹_›, rfl⟩))))))))
    · cases h
  | reset =>
    simp only [runLine, Host.Outcome.next.injEq] at h
    exact .inr (.inr (.inr (.inr (.inr (.inr (.inr (.inr (.inr (.inl ⟨rfl, h.symm⟩)))))))))
  | wait =>
    simp only [runLine] at h
    refine .inr (.inr (.inr (.inr (.inr (.inr (.inr (.inr (.inr (.inr (.inl ⟨rfl, ?_⟩))))))))))
    split at h
    · cases h; exact ⟨true, rfl⟩
    · cases h; exact ⟨false, rfl⟩
  | dump =>
    simp only [runLine, Host.Outcome.next.injEq] at h
    exact .inr (.inr (.inr (.inr (.inr (.inr (.inr (.inr (.inr (.inr (.inr ⟨rfl, h.symm⟩))))))))))

/-- What a step can do when it gives a next state: the engine completes, the host waits, or it runs a line. -/
theorem step_cases (s t : State) (h : step s = .next t) :
    (s.turn = .engine ∧ t = complete s.takeTurn) ∨
    (s.turn = .host ∧ s.host = [] ∧ t = s.takeTurn) ∨
    (s.turn = .host ∧ ∃ l ls, s.host = l :: ls ∧ runLine l { s.takeTurn with host := ls } = .next t) := by
  unfold step at h
  split at h
  · rename_i ht; cases h; exact .inl ⟨ht, rfl⟩
  · rename_i ht
    unfold hostTurn at h
    rw [State.takeTurn_host] at h
    split at h
    · rename_i hh; cases h; exact .inr (.inl ⟨ht, hh, rfl⟩)
    · rename_i l ls hh; exact .inr (.inr ⟨ht, l, ls, hh, h⟩)

/-- A line that is a step of the instance never stops (R288). -/
theorem runLine_of_wf (l : HostLine) (s : State) (h : l.wf s.params = true) : ∃ t, runLine l s = .next t := by
  cases l with
  | rd r => exact ⟨_, rfl⟩
  | wr r v =>
    cases r
    · obtain ⟨t, ht, -⟩ := issueCommand_cases v s
      exact ⟨t, ht⟩
    all_goals exact ⟨_, rfl⟩
  | rdb sp off =>
    simp only [HostLine.wf, decide_eq_true_eq] at h
    exact ⟨_, if_pos h⟩
  | wrb sp off b =>
    simp only [HostLine.wf, decide_eq_true_eq] at h
    exact ⟨_, if_pos h⟩
  | reset => exact ⟨_, rfl⟩
  | wait => simp only [runLine]; split <;> exact ⟨_, rfl⟩
  | dump => exact ⟨_, rfl⟩

end Sys2Proof.Machine
end

