-- ==== Sys2Proof/Laws/Picture.lean ====
section
/-! SUPPORT. What the walks leave at every offset of the output, said once: the Y, U and V samples of `ENC` (R174
to R176), the pixels and padding of `DEC` (R205, R206), the header (R231), and every other byte. -/

namespace Sys2Proof.Machine

/-! ### Folds over 0, 1, …, n - 1 -/

/-- What holds of the walk before each step of a fold holds of its end. -/
theorem foldl_range_stage {α : Type} (P : Nat → α → Prop) (f : α → Nat → α) (n : Nat) (a : α) (h0 : P 0 a)
    (hs : ∀ i b, i < n → P i b → P (i + 1) (f b i)) : P n ((List.range n).foldl f a) := by
  induction n with
  | zero => simpa using h0
  | succ n ih =>
    rw [List.range_succ, List.foldl_append]
    exact hs n _ (by omega) (ih (fun i b hi hb => hs i b (by omega) hb))

/-- What no step changes is unchanged at the end. -/
theorem foldl_range_keep {α β : Type} (get : α → β) (f : α → Nat → α) (n : Nat) (a : α)
    (hk : ∀ i b, i < n → get (f b i) = get b) : get ((List.range n).foldl f a) = get a :=
  foldl_range_induct (fun b => get b = get a) f n a rfl (fun b i hi hb => (hk i b hi).trans hb)

/-- What step `i₀` sets and no later step changes is what is left at the end. -/
theorem foldl_range_at {α β : Type} (P : Nat → α → Prop) (get : α → β) (f : α → Nat → α) (n i₀ : Nat) (a : α)
    (v : β) (h0 : P 0 a) (hs : ∀ i b, i < n → P i b → P (i + 1) (f b i)) (hi : i₀ < n)
    (hw : ∀ b, P i₀ b → get (f b i₀) = v) (hk : ∀ i b, i < n → i₀ < i → get (f b i) = get b) :
    get ((List.range n).foldl f a) = v := by
  induction n with
  | zero => omega
  | succ n ih =>
    rw [List.range_succ, List.foldl_append, List.foldl_cons, List.foldl_nil]
    by_cases hn : i₀ = n
    · subst hn
      exact hw _ (foldl_range_stage P f i₀ a h0 (fun i b hi hb => hs i b (by omega) hb))
    · rw [hk n _ (by omega) (by omega)]
      exact ih (fun i b hi hb => hs i b (by omega) hb) (by omega) (fun i b hi hlt => hk i b (by omega) hlt)

/-! ### The offsets of the planar layout do not meet -/

theorem row_inj (r c r' c' n : Nat) (hc : c < n) (hc' : c' < n) (h : r * n + c = r' * n + c') :
    r = r' ∧ c = c' := by
  have hm : (r * n + c) % n = (r' * n + c') % n := by rw [h]
  rw [Nat.mul_add_mod', Nat.mul_add_mod', Nat.mod_eq_of_lt hc, Nat.mod_eq_of_lt hc'] at hm
  subst hm
  exact ⟨Nat.eq_of_mul_eq_mul_right (by omega) (Nat.add_right_cancel h), rfl⟩

theorem yOffset_lt_area (w h r x : Nat) (hr : r < h) (hx : x < w) : yOffset w r x < w * h := by
  have := row_bound r x w h hr hx
  rw [Nat.mul_comm h w] at this
  exact this

theorem uOffset_range (w h r c : Nat) (he : w % 2 = 0) (hr : r < h) (hc : c < w / 2) :
    w * h ≤ uOffset w h r c ∧ uOffset w h r c < w * h + w * h / 2 := by
  have := row_bound r c (w / 2) h hr hc
  rw [half_area w h he] at this
  unfold uOffset
  omega

theorem vOffset_ge (w h r c : Nat) : w * h + w * h / 2 ≤ vOffset w h r c := Nat.le_add_right _ _

/-! ### `ENC` -/

/-- The pixel the walk transforms at disk row `y`, column `x`. -/
abbrev encYuv (rd : Nat → Byte) (w y x : Nat) : Yuv := fwd (packedPixel rd w y x)

/-- What one pixel of the walk leaves at each offset. -/
theorem encPixel_lookup (rd : Nat → Byte) (filt : Filt) (w h y x a : Nat) (k : Walk) :
    lookup (encPixel rd filt w h y x k).dst a =
      if x % 2 = 0 ∧ a = vOffset w h (h - 1 - y) (x / 2) then
        some (chromaSample filt x (encYuv rd w y x).v k.h.vLast)
      else if x % 2 = 0 ∧ a = uOffset w h (h - 1 - y) (x / 2) then
        some (chromaSample filt x (encYuv rd w y x).u k.h.uLast)
      else if a = yOffset w (h - 1 - y) x then some (encYuv rd w y x).y
      else lookup k.dst a := by
  unfold encPixel
  dsimp only
  by_cases hx : x % 2 = 0 <;> simp [hx, lookup_store]

/-- The chroma history before column `x` of disk row `y` (R176). -/
def HistoryAt (rd : Nat → Byte) (w y x : Nat) (k : Walk) : Prop :=
  0 < x → k.h.uLast = (encYuv rd w y (x - 1)).u ∧ k.h.vLast = (encYuv rd w y (x - 1)).v

theorem historyAt_zero (rd : Nat → Byte) (w y : Nat) (k : Walk) : HistoryAt rd w y 0 k :=
  fun h => absurd h (Nat.lt_irrefl 0)

theorem historyAt_succ (rd : Nat → Byte) (filt : Filt) (w h y x : Nat) (k : Walk) :
    HistoryAt rd w y (x + 1) (encPixel rd filt w h y x k) := fun _ => ⟨rfl, rfl⟩

/-- The chroma sample of pair `c` of disk row `y`, as R180 gives it. -/
def encChroma (filt : Filt) (c : Nat) (left before : Byte) : Byte :=
  if filt = .dir ∨ c = 0 then left else average left before

theorem encRow_luma (rd : Nat → Byte) (filt : Filt) (w h y x : Nat) (k : Walk) (he : w % 2 = 0) (hy : y < h)
    (hx : x < w) :
    lookup (encRow rd filt w h y k).dst (yOffset w (h - 1 - y) x) = some (encYuv rd w y x).y := by
  have hr : h - 1 - y < h := by omega
  have hYlt := yOffset_lt_area w h _ x hr hx
  refine foldl_range_at (fun _ _ => True) (fun k : Walk => lookup k.dst (yOffset w (h - 1 - y) x)) _ w x k _
    trivial (fun _ _ _ _ => trivial) hx (fun b _ => ?_) (fun i b hi hlt => ?_)
  · have hv := vOffset_ge w h (h - 1 - y) (x / 2)
    rw [encPixel_lookup, if_neg (by omega)]
    by_cases hp : x % 2 = 0
    · have hu := uOffset_range w h (h - 1 - y) (x / 2) he hr (by omega)
      rw [if_neg (by omega), if_pos rfl]
    · rw [if_neg (by omega), if_pos rfl]
  · have hv := vOffset_ge w h (h - 1 - y) (i / 2)
    have hne : yOffset w (h - 1 - y) x ≠ yOffset w (h - 1 - y) i := fun heq =>
      absurd (row_inj _ _ _ _ _ hx hi heq).2 (by omega)
    rw [encPixel_lookup, if_neg (by omega)]
    by_cases hp : i % 2 = 0
    · have hu := uOffset_range w h (h - 1 - y) (i / 2) he hr (by omega)
      rw [if_neg (by omega), if_neg hne]
    · rw [if_neg (by omega), if_neg hne]

theorem encRow_chromaU (rd : Nat → Byte) (filt : Filt) (w h y c : Nat) (k : Walk) (he : w % 2 = 0) (hy : y < h)
    (hc : c < w / 2) :
    lookup (encRow rd filt w h y k).dst (uOffset w h (h - 1 - y) c) =
      some (encChroma filt c (encYuv rd w y (2 * c)).u (encYuv rd w y (2 * c - 1)).u) := by
  have hr : h - 1 - y < h := by omega
  have hU := uOffset_range w h _ c he hr hc
  have h2 : 2 * c / 2 = c := by omega
  refine foldl_range_at (HistoryAt rd w y) (fun k : Walk => lookup k.dst (uOffset w h (h - 1 - y) c)) _ w (2 * c)
    k _ (historyAt_zero rd w y k) (fun i b _ _ => historyAt_succ rd filt w h y i b) (by omega) (fun b hb => ?_)
    (fun i b hi hlt => ?_)
  · have hv := vOffset_ge w h (h - 1 - y) (2 * c / 2)
    rw [encPixel_lookup, if_neg (by omega), if_pos ⟨by omega, by rw [h2]⟩]
    unfold chromaSample encChroma
    by_cases h0 : c = 0
    · subst h0; simp
    · rw [(hb (by omega)).1]
      simp [h0]
  · have hv := vOffset_ge w h (h - 1 - y) (i / 2)
    have hy' := yOffset_lt_area w h (h - 1 - y) i hr hi
    have hne : i % 2 = 0 → uOffset w h (h - 1 - y) c ≠ uOffset w h (h - 1 - y) (i / 2) := by
      intro hp heq
      unfold uOffset at heq
      omega
    rw [encPixel_lookup, if_neg (by omega), if_neg (fun hh => hne hh.1 hh.2), if_neg (by omega)]

theorem encRow_chromaV (rd : Nat → Byte) (filt : Filt) (w h y c : Nat) (k : Walk) (he : w % 2 = 0) (hy : y < h)
    (hc : c < w / 2) :
    lookup (encRow rd filt w h y k).dst (vOffset w h (h - 1 - y) c) =
      some (encChroma filt c (encYuv rd w y (2 * c)).v (encYuv rd w y (2 * c - 1)).v) := by
  have hr : h - 1 - y < h := by omega
  have hV := vOffset_ge w h (h - 1 - y) c
  have h2 : 2 * c / 2 = c := by omega
  refine foldl_range_at (HistoryAt rd w y) (fun k : Walk => lookup k.dst (vOffset w h (h - 1 - y) c)) _ w (2 * c)
    k _ (historyAt_zero rd w y k) (fun i b _ _ => historyAt_succ rd filt w h y i b) (by omega) (fun b hb => ?_)
    (fun i b hi hlt => ?_)
  · rw [encPixel_lookup, if_pos ⟨by omega, by rw [h2]⟩]
    unfold chromaSample encChroma
    by_cases h0 : c = 0
    · subst h0; simp
    · rw [(hb (by omega)).2]
      simp [h0]
  · have hy' := yOffset_lt_area w h (h - 1 - y) i hr hi
    have hne : i % 2 = 0 → vOffset w h (h - 1 - y) c ≠ vOffset w h (h - 1 - y) (i / 2) := by
      intro hp heq
      unfold vOffset at heq
      omega
    rw [encPixel_lookup, if_neg (fun hh => hne hh.1 hh.2)]
    by_cases hp : i % 2 = 0
    · have hu := uOffset_range w h (h - 1 - y) (i / 2) he hr (by omega)
      rw [if_neg (by omega), if_neg (by omega)]
    · rw [if_neg (by omega), if_neg (by omega)]

/-- A disk row writes no byte of another row and none beyond the planes. -/
theorem encRow_keep (rd : Nat → Byte) (filt : Filt) (w h y a : Nat) (k : Walk)
    (hY : ∀ x < w, a ≠ yOffset w (h - 1 - y) x) (hU : ∀ c < w / 2, a ≠ uOffset w h (h - 1 - y) c)
    (hV : ∀ c < w / 2, a ≠ vOffset w h (h - 1 - y) c) (he : w % 2 = 0) :
    lookup (encRow rd filt w h y k).dst a = lookup k.dst a := by
  refine foldl_range_keep (fun k : Walk => lookup k.dst a) _ w k (fun i b hi => ?_)
  rw [encPixel_lookup, if_neg (fun hh => hV (i / 2) (by omega) hh.2),
    if_neg (fun hh => hU (i / 2) (by omega) hh.2), if_neg (hY i hi)]

/-- What the walk leaves at an offset that row `r` writes last and no other row touches. -/
theorem encPicture_at (rd : Nat → Byte) (filt : Filt) (w h r a : Nat) (k : Walk) (v : Option Byte) (hr : r < h)
    (hw : ∀ b, lookup (encRow rd filt w h (h - 1 - r) b).dst a = v)
    (hk : ∀ i b, i < h → r < i → lookup (encRow rd filt w h (h - 1 - i) b).dst a = lookup b.dst a) :
    lookup (encPicture rd filt w h k).dst a = v :=
  foldl_range_at (fun _ _ => True) (fun k : Walk => lookup k.dst a) _ h r k v trivial (fun _ _ _ _ => trivial) hr
    (fun b _ => hw b) hk

theorem flip_flip (h r : Nat) (hr : r < h) : h - 1 - (h - 1 - r) = r := by omega

/-- The Y plane a successful `ENC` writes (R174, R180). -/
theorem encPicture_luma (rd : Nat → Byte) (filt : Filt) (w h r x : Nat) (k : Walk) (he : w % 2 = 0) (hr : r < h)
    (hx : x < w) :
    lookup (encPicture rd filt w h k).dst (yOffset w r x) = some (encYuv rd w (h - 1 - r) x).y := by
  have hf := flip_flip h r hr
  have hlt := yOffset_lt_area w h r x hr hx
  refine encPicture_at rd filt w h r _ k _ hr (fun b => ?_) (fun i b hi hlt' => ?_)
  · have := encRow_luma rd filt w h (h - 1 - r) x b he (by omega) hx
    rwa [hf] at this
  · have hfi := flip_flip h i hi
    refine encRow_keep rd filt w h _ _ b ?_ ?_ ?_ he <;> rw [hfi]
    · exact fun x' hx' heq => absurd (row_inj _ _ _ _ _ hx hx' heq).1 (by omega)
    · intro c hc
      have := uOffset_range w h i c he hi hc
      omega
    · intro c _
      have := vOffset_ge w h i c
      omega

/-- The U plane a successful `ENC` writes (R175, R180). -/
theorem encPicture_chromaU (rd : Nat → Byte) (filt : Filt) (w h r c : Nat) (k : Walk) (he : w % 2 = 0)
    (hr : r < h) (hc : c < w / 2) :
    lookup (encPicture rd filt w h k).dst (uOffset w h r c) =
      some (encChroma filt c (encYuv rd w (h - 1 - r) (2 * c)).u (encYuv rd w (h - 1 - r) (2 * c - 1)).u) := by
  have hf := flip_flip h r hr
  have hU := uOffset_range w h r c he hr hc
  refine encPicture_at rd filt w h r _ k _ hr (fun b => ?_) (fun i b hi hlt' => ?_)
  · have := encRow_chromaU rd filt w h (h - 1 - r) c b he (by omega) hc
    rwa [hf] at this
  · have hfi := flip_flip h i hi
    refine encRow_keep rd filt w h _ _ b ?_ ?_ ?_ he <;> rw [hfi]
    · intro x hx
      have := yOffset_lt_area w h i x hi hx
      omega
    · exact fun c' hc' heq => absurd (row_inj _ _ _ _ _ hc hc' (Nat.add_left_cancel heq)).1 (by omega)
    · intro c' _
      have := vOffset_ge w h i c'
      omega

/-- The V plane a successful `ENC` writes (R175, R180). -/
theorem encPicture_chromaV (rd : Nat → Byte) (filt : Filt) (w h r c : Nat) (k : Walk) (he : w % 2 = 0)
    (hr : r < h) (hc : c < w / 2) :
    lookup (encPicture rd filt w h k).dst (vOffset w h r c) =
      some (encChroma filt c (encYuv rd w (h - 1 - r) (2 * c)).v (encYuv rd w (h - 1 - r) (2 * c - 1)).v) := by
  have hf := flip_flip h r hr
  have hV := vOffset_ge w h r c
  refine encPicture_at rd filt w h r _ k _ hr (fun b => ?_) (fun i b hi hlt' => ?_)
  · have := encRow_chromaV rd filt w h (h - 1 - r) c b he (by omega) hc
    rwa [hf] at this
  · have hfi := flip_flip h i hi
    refine encRow_keep rd filt w h _ _ b ?_ ?_ ?_ he <;> rw [hfi]
    · intro x hx
      have := yOffset_lt_area w h i x hi hx
      omega
    · intro c' hc'
      have := uOffset_range w h i c' he hi hc'
      omega
    · exact fun c' hc' heq => absurd (row_inj _ _ _ _ _ hc hc' (Nat.add_left_cancel heq)).1 (by omega)

/-- `ENC` writes no byte beyond the planes (R70). -/
theorem encPicture_beyond (rd : Nat → Byte) (filt : Filt) (w h a : Nat) (k : Walk) (he : w % 2 = 0)
    (ha : planarLen w h ≤ a) : lookup (encPicture rd filt w h k).dst a = lookup k.dst a := by
  refine foldl_range_keep (fun k : Walk => lookup k.dst a) _ h k (fun i b hi => ?_)
  refine encRow_keep rd filt w h _ _ b ?_ ?_ ?_ he <;> rw [flip_flip h i hi]
  · intro x hx
    have := yOffset_lt w h i x hi hx
    omega
  · intro c hc
    have := uOffset_lt w h i c he hi hc
    omega
  · intro c hc
    have := vOffset_lt w h i c he hi hc
    omega

/-! ### `DEC` -/

theorem storePixel_lookup (m : Memory) (off a : Nat) (p : Rgb) :
    lookup (storePixel m off p) a =
      if a = off + 2 then some p.r else if a = off + 1 then some p.g else if a = off then some p.b
      else lookup m a := by
  simp [storePixel, lookup_store]

theorem storePadding_at (m : Memory) (w y k : Nat) (hk : k < rowPadding w) :
    lookup (storePadding m w y) (padOffset w y k) = some padByte :=
  foldl_range_at (fun _ _ => True) (fun m : Memory => lookup m (padOffset w y k)) _ (rowPadding w) k m _ trivial
    (fun _ _ _ _ => trivial) hk (fun b _ => lookup_store_same b _ _)
    (fun i b _ hlt => lookup_store_other b _ _ _ (by unfold padOffset; omega))

theorem storePadding_keep (m : Memory) (w y a : Nat) (h : ∀ k < rowPadding w, a ≠ padOffset w y k) :
    lookup (storePadding m w y) a = lookup m a :=
  foldl_range_keep (fun m : Memory => lookup m a) _ (rowPadding w) m
    (fun i b hi => lookup_store_other b _ _ _ (h i hi))

/-- Where the bytes of a disk row lie. -/
theorem row_span (w y x c : Nat) (hx : x < w) (hc : c < 3) :
    hdrLen + y * stride w ≤ pixelOffset w y x + c ∧ pixelOffset w y x + c < hdrLen + (y + 1) * stride w := by
  have : stride w = w * 3 + rowPadding w := rfl
  rw [Nat.add_mul]
  unfold pixelOffset
  omega

theorem pad_span (w y k : Nat) (hk : k < rowPadding w) :
    hdrLen + y * stride w ≤ padOffset w y k ∧ padOffset w y k < hdrLen + (y + 1) * stride w := by
  have : stride w = w * 3 + rowPadding w := rfl
  rw [Nat.add_mul]
  unfold padOffset
  omega

/-- Byte `c` of a packed pixel (R68): B, G, R. -/
def packedByte (p : Rgb) : Nat → Byte
  | 0 => p.b
  | 1 => p.g
  | _ => p.r

/-- One planar row: what it leaves at each byte of its pixels. -/
theorem decRow_pixel (rd : Nat → Byte) (w h i j c : Nat) (k : Walk) (hj : j < w) (hc : c < 3) :
    lookup (decRow rd w h i k).dst (pixelOffset w (h - 1 - i) j + c) =
      some (packedByte (inv (planarPixel rd w h i j)) c) := by
  unfold decRow
  dsimp only
  rw [storePadding_keep _ _ _ _ (fun k _ => by unfold pixelOffset padOffset; omega)]
  refine foldl_range_at (fun _ _ => True) (fun k : Walk => lookup k.dst (pixelOffset w (h - 1 - i) j + c)) _ w j k _
    trivial (fun _ _ _ _ => trivial) hj (fun b _ => ?_) (fun j' b hj' hlt => ?_)
  · show lookup (storePixel b.dst _ _) _ = _
    rw [storePixel_lookup]
    match c, hc with
    | 0, _ => rw [if_neg (by omega), if_neg (by omega), if_pos (by omega)]; rfl
    | 1, _ => rw [if_neg (by omega), if_pos rfl]; rfl
    | 2, _ => rw [if_pos rfl]; rfl
  · show lookup (storePixel b.dst _ _) _ = _
    rw [storePixel_lookup]
    unfold pixelOffset
    rw [if_neg (by omega), if_neg (by omega), if_neg (by omega)]

theorem decRow_padding (rd : Nat → Byte) (w h i p : Nat) (k : Walk) (hp : p < rowPadding w) :
    lookup (decRow rd w h i k).dst (padOffset w (h - 1 - i) p) = some padByte :=
  storePadding_at _ w _ p hp

/-- One planar row writes only its own disk row. -/
theorem decRow_keep (rd : Nat → Byte) (w h i a : Nat) (k : Walk)
    (ha : a < hdrLen + (h - 1 - i) * stride w ∨ hdrLen + (h - 1 - i + 1) * stride w ≤ a) :
    lookup (decRow rd w h i k).dst a = lookup k.dst a := by
  unfold decRow
  dsimp only
  rw [storePadding_keep _ _ _ _ (fun p hp => by have := pad_span w (h - 1 - i) p hp; omega)]
  refine foldl_range_keep (fun k : Walk => lookup k.dst a) _ w k (fun j b hj => ?_)
  show lookup (storePixel b.dst _ _) _ = _
  have h0 := row_span w (h - 1 - i) j 0 hj (by omega)
  have h1 := row_span w (h - 1 - i) j 1 hj (by omega)
  have h2 := row_span w (h - 1 - i) j 2 hj (by omega)
  rw [storePixel_lookup, if_neg (by omega), if_neg (by omega), if_neg (by omega)]

/-- A byte of disk row `y` lies outside every other disk row. -/
theorem other_row (w a y y' : Nat) (hne : y ≠ y') (h1 : hdrLen + y * stride w ≤ a)
    (h2 : a < hdrLen + (y + 1) * stride w) :
    a < hdrLen + y' * stride w ∨ hdrLen + (y' + 1) * stride w ≤ a := by
  rcases Nat.lt_or_gt_of_ne hne with hlt | hgt
  · have : (y + 1) * stride w ≤ y' * stride w := Nat.mul_le_mul_right _ hlt
    omega
  · have : (y' + 1) * stride w ≤ y * stride w := Nat.mul_le_mul_right _ hgt
    omega

theorem decPicture_at (rd : Nat → Byte) (w h i a : Nat) (k : Walk) (v : Option Byte) (hi : i < h)
    (h1 : hdrLen + (h - 1 - i) * stride w ≤ a) (h2 : a < hdrLen + (h - 1 - i + 1) * stride w)
    (hw : ∀ b, lookup (decRow rd w h i b).dst a = v) :
    lookup (decPicture rd w h k).dst a = v :=
  foldl_range_at (fun _ _ => True) (fun k : Walk => lookup k.dst a) _ h i k v trivial (fun _ _ _ _ => trivial) hi
    (fun b _ => hw b) (fun i' b hi' hlt => decRow_keep rd w h i' a b (other_row w a _ _ (by omega) h1 h2))

/-- The pixels a successful `DEC` writes (R205): byte 0 is B, 1 is G, 2 is R. -/
theorem decPicture_pixel (rd : Nat → Byte) (w h i j c : Nat) (k : Walk) (hi : i < h) (hj : j < w) (hc : c < 3) :
    lookup (decPicture rd w h k).dst (pixelOffset w (h - 1 - i) j + c) =
      some (packedByte (inv (planarPixel rd w h i j)) c) :=
  decPicture_at rd w h i _ k _ hi (row_span w _ j c hj hc).1 (row_span w _ j c hj hc).2
    (fun b => decRow_pixel rd w h i j c b hj hc)

/-- The padding a successful `DEC` writes (R206), by disk row. -/
theorem decPicture_padding (rd : Nat → Byte) (w h y p : Nat) (k : Walk) (hy : y < h) (hp : p < rowPadding w) :
    lookup (decPicture rd w h k).dst (padOffset w y p) = some padByte := by
  have hf := flip_flip h y hy
  have hs := pad_span w y p hp
  have := decPicture_at rd w h (h - 1 - y) (padOffset w y p) k (some padByte) (by omega)
    (by rw [hf]; exact hs.1) (by rw [hf]; exact hs.2)
    (fun b => by have := decRow_padding rd w h (h - 1 - y) p b hp; rwa [hf] at this)
  exact this

/-- The walk of `DEC` leaves the header and every byte beyond the container alone (R70). -/
theorem decPicture_outside (rd : Nat → Byte) (w h a : Nat) (k : Walk)
    (ha : a < hdrLen ∨ containerLen w h ≤ a) : lookup (decPicture rd w h k).dst a = lookup k.dst a := by
  refine foldl_range_keep (fun k : Walk => lookup k.dst a) _ h k (fun i b hi => decRow_keep rd w h i a b ?_)
  have : (h - 1 - i + 1) * stride w ≤ h * stride w := Nat.mul_le_mul_right _ (by omega)
  unfold containerLen payloadLen at ha
  rw [Nat.mul_comm (stride w)] at ha
  omega

/-! ### The header -/

/-- The serializer writes only the header (R231). -/
theorem serializeHeader_outside (m : Memory) (w h a : Nat) (ha : hdrLen ≤ a) :
    lookup (serializeHeader m w h) a = lookup m a := by
  unfold hdrLen at ha
  simp only [serializeHeader, headerFields, List.foldl_cons, List.foldl_nil]
  repeat rw [lookup_storeLE_other _ _ _ _ _ (by omega)]

/-- Writing a list of fields that do not meet leaves each of them as written. -/
theorem lookup_fields (l : List Field) (m : Memory) (f : Field) (k : Nat)
    (hd : l.Pairwise (fun f g => f.1 + f.2.1 ≤ g.1)) (hf : f ∈ l) (hk : k < f.2.1) :
    lookup (l.foldl (fun m f => storeLE m f.1 f.2.1 f.2.2) m) (f.1 + k) =
      some (BitVec.ofNat 8 (f.2.2 / 256 ^ k)) := by
  have keep : ∀ (l : List Field) (m : Memory), (∀ g ∈ l, f.1 + f.2.1 ≤ g.1) →
      lookup (l.foldl (fun m f => storeLE m f.1 f.2.1 f.2.2) m) (f.1 + k) = lookup m (f.1 + k) := by
    intro l
    induction l with
    | nil => intro m _; rfl
    | cons g l ih =>
      intro m hg
      have := hg g List.mem_cons_self
      rw [List.foldl_cons, ih _ (fun g' hg' => hg g' (List.mem_cons_of_mem _ hg')),
        lookup_storeLE_other _ _ _ _ _ (by omega)]
  induction l generalizing m with
  | nil => cases hf
  | cons g l ih =>
    have hc := List.pairwise_cons.mp hd
    rw [List.foldl_cons]
    rcases List.mem_cons.mp hf with hf | hf
    · subst hf
      rw [keep l _ hc.1]
      exact lookup_storeLE_at m f.1 f.2.1 f.2.2 k hk
    · exact ih _ hc.2 hf

/-- Every byte of every field of the header, as the serializer writes it (R231). -/
theorem serializeHeader_field (m : Memory) (w h : Nat) (f : Field) (k : Nat) (hf : f ∈ headerFields w h)
    (hk : k < f.2.1) :
    lookup (serializeHeader m w h) (f.1 + k) = some (BitVec.ofNat 8 (f.2.2 / 256 ^ k)) :=
  lookup_fields (headerFields w h) m f k (by simp [headerFields]) hf hk

end Sys2Proof.Machine
end

