-- ==== Sys2Proof/Tests/Slice0.lean ====
section
/-! SUPPORT. Tests of one step each, on vectors of 95_test_vectors.md, and for each obligation with hypotheses a
concrete state and operands that meet them together. -/

namespace Sys2Proof.Tests

open Sys2Proof.Machine

/-! ### The small states the tests are about -/

/-- A buffer holding the given bytes from offset 0. -/
def bytes : List Byte → Nat → Memory
  | [], _ => []
  | b :: bs, a => (a, b) :: bytes bs (a + 1)

/-- An idle instance of 256 + 256 bytes whose host has loaded `bs` (95_test_vectors.md section 3). -/
def loaded (bs : List Byte) : State :=
  { State.initial { srcBytes := 256, dstBytes := 256 } with
    src := bytes bs 0, srcLen := BitVec.ofNat 32 bs.length }

/-- `HDR(w, h)` of 95_test_vectors.md for pictures below 256 by 256 with sizes below 256. -/
def hdr (fileSize w h imageSize : Byte) : List Byte :=
  [0x42, 0x4D, fileSize, 0, 0, 0, 0, 0, 0, 0, 0x36, 0, 0, 0, 0x28, 0, 0, 0, w, 0, 0, 0, h, 0, 0, 0, 1, 0, 0x18, 0,
   0, 0, 0, 0, imageSize, 0, 0, 0, 0, 0, 0, 0, 0, 0, 0, 0, 0, 0, 0, 0, 0, 0, 0, 0]

/-- Vector E3: 4 by 1, red, green, blue, (200,100,50). -/
def pictureE3 : State :=
  loaded (hdr 0x42 4 1 0x0C ++ [0x00, 0x00, 0xFF, 0x00, 0xFF, 0x00, 0xFF, 0x00, 0x00, 0x32, 0x64, 0xC8])

/-- Vector E4: 2 by 1, the smallest picture, with two padding bytes. -/
def pictureE4 : State := loaded (hdr 0x3E 2 1 0x08 ++ [0x03, 0x02, 0x01, 0x32, 0x64, 0xC8, 0x77, 0x77])

/-- Vector D3: the planar image of a 2 by 1 picture and its dimensions. -/
def planarD3 : State := { loaded [0x01, 0x7C, 0x80, 0x7F] with width := 2, height := 1 }

/-- The three high bytes of the header's height field set, which makes it negative. -/
def patched (m : Memory) : Memory := store (store (store m 23 0xFF) 24 0xFF) 25 0xFF

/-- A state with an operation accepted. -/
def pending (op : Op) (filt : Filt) (s : State) : State := s.startOperation op filt

/-- The bytes of `DST` from offset 0. -/
def output (s : State) (n : Nat) : List Byte := (List.range n).map (s.byteAt .dst)

/-! ### Decoding: words written out from R101, bit by bit -/

theorem test_decode_clr : decode 0b00000000000000000000000000000000 = .ok .clr := by decide
theorem test_decode_encAvg : decode 0b00000000000000000000000000000001 = .ok .encAvg := by decide
theorem test_decode_encDir : decode 0b00000000000000000000000100000001 = .ok .encDir := by decide
theorem test_decode_dec : decode 0b00000000000000000000000000000010 = .ok .dec := by decide
theorem test_decode_undefined_op : decode 0x0000000F = .error .undefinedOp := by decide
theorem test_decode_dec_with_filt : decode 0x00000102 = .error .filtWithoutEnc := by decide
theorem test_decode_reserved_bit : decode 0x80000001 = .error .reservedBits := by decide
theorem test_table_words : decodeTableWord 32 0x101 = some .encDir ∧ decodeTableWord 32 0x11 = none := by decide

/-! ### The checks refuse ill-formed terms -/

theorem test_params_source_too_small : ¬ Params.legal { srcBytes := 53, dstBytes := 256 } := by decide
theorem test_params_source_too_large : ¬ Params.legal { srcBytes := 2 ^ 32, dstBytes := 256 } := by decide
theorem test_params_destination_too_small : ¬ Params.legal { srcBytes := 256, dstBytes := 53 } := by decide
theorem test_params_destination_too_large : ¬ Params.legal { srcBytes := 256, dstBytes := 2 ^ 32 } := by decide
theorem test_read_beyond_refused : (HostLine.rdb .src 256).wf { srcBytes := 256, dstBytes := 300 } = false := by
  decide
theorem test_write_beyond_refused : (HostLine.wrb .dst 300 0).wf { srcBytes := 256, dstBytes := 300 } = false := by
  decide
theorem test_memory_unsorted_refused : ¬ Memory.wf [(1, 0), (0, 0)] := by decide

/-! ### One step each -/

/-- Vector K3: `CLR` on a reported `InvalidDimensions`. -/
theorem test_clr_acknowledges :
    (exec .clr { pictureE4 with status := statusError .invalidDimensions, dstLen := 16 }) =
      .next { pictureE4 with status := .idle, dstLen := 16 } := rfl

/-- Program 1: the placed word starts `ENC.DIR` as the first command after reset. -/
theorem test_step_runs_placed_encDir :
    ∃ t, step (State.reset.withFetchWord 32 0x101) = .next t ∧ statusWord t.status = 0x001 ∧ t.h.op = .enc ∧
      t.h.filt = .dir ∧ t.host = [] :=
  ⟨_, rfl, by decide, rfl, rfl, rfl⟩

/-- Vector E3 under `ENC.AVG`. -/
theorem test_encAvg_E3 : output (complete (pending .enc .avg pictureE3)) 8 =
    [0x4C, 0x95, 0x1D, 0x7C, 0x54, 0x95, 0xFF, 0x40] := by decide +kernel

/-- Vector E3 under `ENC.DIR`. -/
theorem test_encDir_E3 : output (complete (pending .enc .dir pictureE3)) 8 =
    [0x4C, 0x95, 0x1D, 0x7C, 0x54, 0xFF, 0xFF, 0x6B] := by decide +kernel

/-- Vector D3. -/
theorem test_dec_D3 : output (complete (pending .dec .avg planarD3)) 62 =
    hdr 0x3E 2 1 0x08 ++ [0x01, 0x01, 0x00, 0x7C, 0x7C, 0x7A, 0xFF, 0xFF] := by decide +kernel

/-- Vector X15: `DEC` right after reset is `InvalidDimensions`. -/
theorem test_dec_after_reset : statusWord (complete (pending .dec .avg State.reset)).status = 0x206 := by
  decide +kernel

/-- Vector K6: `DEC` with `FILT` = 1 is illegal. -/
theorem test_illegal_word : issueCommand 0x102 pictureE4 =
    .next { pictureE4 with status := statusError .illegalCommand } := rfl

/-- R132 and R134, the worked examples. -/
theorem test_fwd_inv_worked : fwd { r := 200, g := 100, b := 50 } = { y := 124, u := 86, v := 182 } ∧
    inv { y := 124, u := 86, v := 182 } = { r := 199, g := 99, b := 49 } := by decide

/-- 95_test_vectors.md 2.2, the shift corner: a negative sum is floored. -/
theorem test_fwd_floor : fwd { r := 255, g := 0, b := 0 } = { y := 76, u := 84, v := 255 } := by decide

/-! ### The hypotheses of the obligations are met -/

/-- A reached state with the invariant, with an operation pending and a host that goes on meanwhile. -/
def racing : State :=
  { pending .enc .avg pictureE4 with
    host := [.wrb .src 54 0, .wr .srcLen 0, .wr .ctrl 1, .wr .cmd 2, .wait], sched := [.host, .host] }

theorem test_pictureE3_accepted : pictureE3.params.legal ∧ pictureE3.status.busy = false ∧ EncAccepts pictureE3 4 1 :=
  ⟨by decide, rfl, ⟨by decide +kernel, by decide +kernel, by decide +kernel, by decide +kernel, by decide +kernel,
    by decide +kernel, by decide +kernel, by decide, by decide, by decide, by decide +kernel, by decide +kernel,
    by decide +kernel⟩⟩

theorem test_pictureE4_accepted : EncAccepts pictureE4 2 1 :=
  ⟨by decide +kernel, by decide +kernel, by decide +kernel, by decide +kernel, by decide +kernel, by decide +kernel,
    by decide +kernel, by decide, by decide, by decide, by decide +kernel, by decide +kernel, by decide +kernel⟩

theorem test_planarD3_accepted : planarD3.params.legal ∧ planarD3.status.busy = false ∧ DecAccepts planarD3 2 1 :=
  ⟨by decide, rfl, ⟨by decide +kernel, by decide +kernel, by decide, by decide, by decide, by decide +kernel,
    by decide +kernel, by decide +kernel⟩⟩

theorem test_pendingD3_accepted :
    (pending .dec .avg planarD3).params.legal ∧ (pending .dec .avg planarD3).h.op = .dec ∧
      DecAccepts (pending .dec .avg planarD3) 2 1 :=
  ⟨by decide, rfl, ⟨by decide +kernel, by decide +kernel, by decide, by decide, by decide, by decide +kernel,
    by decide +kernel, by decide +kernel⟩⟩

/-- The written container moved to `SRC`, as the inner hypotheses of DecOutputIsAcceptedByEnc ask, in an instance
whose destination is too small: the run does answer an error. -/
theorem test_dec_output_moved : ∃ t : State,
    t.srcLen = (complete (pending .dec .avg planarD3)).dstLen ∧
    (∀ a < t.srcLen.toNat, t.byteAt .src a = (complete (pending .dec .avg planarD3)).byteAt .dst a) ∧
    runEnc t.h.filt t = .error .capacity :=
  ⟨{ loaded (output (complete (pending .dec .avg planarD3)) 62) with params := { srcBytes := 256, dstBytes := 3 } },
    by decide +kernel, by decide +kernel, by decide +kernel⟩

/-- Illegal words exist and an idle state to write them in. -/
theorem test_illegal_word_met : ((0x80000001 : Word) ≠ 0x00000000 ∧ (0x80000001 : Word) ≠ 0x00000001 ∧
    (0x80000001 : Word) ≠ 0x00000101 ∧ (0x80000001 : Word) ≠ 0x00000002) ∧ pictureE4.status.busy = false := by
  decide

theorem test_fetch_met : ({ pictureE4 with host := [.wr .cmd 2] }).fetch = some 2 ∧ decode 2 = .ok .dec := by
  decide

theorem test_fetch_busy_met :
    ({ pending .enc .avg pictureE4 with host := [.wr .cmd 2], sched := [.host] }).fetch = some 2 := by decide

theorem test_host_turn_met : racing.turn = .host ∧ racing.host = .wrb .src 54 0 :: racing.host.tail ∧
    pictureE4.turn = .host ∧ pictureE4.host = [] ∧ ({ racing with host := [] }).turn = .host := by decide

theorem test_idle_met : pictureE4.status.busy = false := rfl
theorem test_busy_met : (pending .enc .avg pictureE4).status.busy = true := rfl
theorem test_engine_turn_met : (pending .enc .avg pictureE4).turn = .engine := rfl
theorem test_engine_turn_scheduled : ({ pending .enc .avg pictureE4 with sched := [.engine, .host] }).turn = .engine :=
  rfl

/-- One state for each clause of EncReportsTheFirstFailedCheck, at the edge of its range (vectors X6, X1, X4, X10,
X21's form, E4). -/
theorem test_enc_clauses_met :
    ({ pictureE4 with srcLen := 53 }).srcLen.toNat < 54 ∧
    (54 ≤ ({ pictureE4 with srcLen := 54 }).srcLen.toNat ∧
      (loaded (hdr 0x3E 3 1 0x08)).byteAt .src 18 = 3 ∧
      (BitVec.ofNat 32 (readLE ((loaded (hdr 0x3E 3 1 0x08)).byteAt .src) 18 4)).toInt % 2 = 1) ∧
    (loaded (0x4D :: (hdr 0x3E 2 1 0x08).tail)).byteAt .src 0 ≠ 0x42 ∧
    ({ pictureE4 with srcLen := 61 }).srcLen.toNat < 54 + stride 2 * 1 ∧
    (54 + stride 2 * 1 ≤ pictureE4.srcLen.toNat ∧
      ({ pictureE4 with params := { srcBytes := 61, dstBytes := 256 } }).params.srcBytes < 54 + stride 2 * 1) ∧
    (54 + stride 2 * 1 ≤ pictureE4.params.srcBytes ∧ 2 * 1 * 2 ≤ pictureE4.params.dstBytes) := by decide +kernel

/-- One status for each of those clauses, as the vectors give it. -/
theorem test_enc_clauses_report :
    statusWord (complete (pending .enc .avg { pictureE4 with srcLen := 53 })).status = 0x306 ∧
    statusWord (complete (pending .enc .avg (loaded (hdr 0x3E 3 1 0x08)))).status = 0x206 ∧
    statusWord (complete (pending .enc .avg (loaded (0x4D :: (hdr 0x3E 2 1 0x08).tail)))).status = 0x106 ∧
    statusWord (complete (pending .enc .avg { pictureE4 with srcLen := 61 })).status = 0x306 ∧
    statusWord (complete (pending .enc .avg { pictureE4 with
      params := { srcBytes := 61, dstBytes := 256 } })).status = 0x506 := by decide +kernel

/-- One state for each clause of DecReportsTheFirstFailedCheck (vectors X12, X13, X23, D3). -/
theorem test_dec_clauses_met :
    ({ planarD3 with width := 3 }).width.toInt % 2 = 1 ∧ ({ planarD3 with width := 0 }).width.toInt ≤ 0 ∧
    ({ planarD3 with height := 0xFFFFFFFF }).height.toInt ≤ 0 ∧
    (0 < planarD3.width.toInt ∧ 0 < planarD3.height.toInt ∧ planarD3.width.toInt % 2 = 0 ∧
      ({ planarD3 with srcLen := 3 }).srcLen.toNat ≠ planarD3.width.toInt.toNat * planarD3.height.toInt.toNat * 2 ∧
      planarD3.srcLen.toNat = planarD3.width.toInt.toNat * planarD3.height.toInt.toNat * 2) ∧
    ({ planarD3 with params := { srcBytes := 256, dstBytes := 61 } }).params.dstBytes < 54 + stride 2 * 1 := by
  decide +kernel

/-- Both kinds of ending, as OutputIsWholeOrAbsent and RepeatedCommandRepeatsTheError distinguish them. -/
theorem test_both_endings : (complete (pending .dec .avg planarD3)).status.code = 0 ∧
    0 < (complete (pending .dec .avg planarD3)).dstLen.toNat ∧
    (complete (pending .dec .avg pictureE4)).status.code ≠ 0 := by decide +kernel

theorem test_repeated_command_met : ∃ t t', pictureE4.status.busy = false ∧ Instr.dec ≠ Instr.clr ∧
    exec .dec pictureE4 = .next t ∧ (complete t).status.code ≠ 0 ∧ exec .dec (complete t) = .next t' :=
  ⟨_, _, rfl, by decide, rfl, by decide +kernel, rfl⟩

/-- Two states that differ in what an operation must not depend on. -/
theorem test_same_inputs_met : ∃ s t : State, s ≠ t ∧ s.params = t.params ∧ s.h.op = t.h.op ∧ s.h.filt = t.h.filt ∧
    s.width = t.width ∧ s.height = t.height ∧ s.srcLen = t.srcLen ∧
    ∀ a < s.srcLen.toNat, (a < 54 ∨ a < s.params.srcBytes) → s.byteAt .src a = t.byteAt .src a :=
  ⟨pending .enc .avg pictureE4, { pending .enc .avg pictureE4 with dst := [(0, 1)], ie := true },
    by decide +kernel, rfl, rfl, rfl, rfl, rfl, rfl, fun _ _ _ => rfl⟩

/-- The hypotheses of EncIgnoresUncheckedFieldsAndPadding. -/
abbrev sameChecked (s t : State) (w h : Int) : Prop :=
  s.params = t.params ∧ s.h.op = .enc ∧ t.h.op = .enc ∧ s.h.filt = t.h.filt ∧ s.srcLen = t.srcLen ∧
    (BitVec.ofNat 32 (readLE (s.byteAt .src) 18 4)).toInt = w ∧
    (BitVec.ofNat 32 (readLE (s.byteAt .src) 22 4)).toInt = h ∧
    (∀ a < 54, (a < 2 ∨ (18 ≤ a ∧ a < 26) ∨ (28 ≤ a ∧ a < 34)) → s.byteAt .src a = t.byteAt .src a) ∧
    (∀ y < h.toNat, ∀ x < w.toNat, ∀ c < 3, s.byteAt .src (54 + y * stride w.toNat + x * 3 + c) =
      t.byteAt .src (54 + y * stride w.toNat + x * 3 + c))

/-- Two containers that differ in an unchecked field and in the padding. -/
theorem test_ignored_bytes_met : ∃ s t : State, s ≠ t ∧ sameChecked s t 2 1 :=
  ⟨pending .enc .avg pictureE4,
    pending .enc .avg (loaded (hdr 0xFF 2 1 0xFF ++ [0x03, 0x02, 0x01, 0x32, 0x64, 0xC8, 0x00, 0x01])),
    by decide +kernel, by decide +kernel⟩

/-- `E4` with the header's height negative (vector X5's form), its pixels replaced in the second state. -/
theorem test_ignored_bytes_negative_met : ∃ s t : State, s ≠ t ∧ sameChecked s t 2 (-2) :=
  ⟨pending .enc .avg { pictureE4 with src := patched (bytes (hdr 0x3E 2 0xFE 0x08) 0) },
    pending .enc .avg { pictureE4 with src := patched (bytes (hdr 0xFF 2 0xFE 0x08 ++ [1, 2, 3]) 0) },
    by decide +kernel, by decide +kernel⟩

theorem test_racing_inv : racing.Inv :=
  ⟨by decide, by decide, fun _ => by decide, by decide, by decide, by decide +kernel, by decide, by decide +kernel,
    by decide +kernel⟩

theorem test_racing_met : racing.hostWf ∧ racing.status.busy = true ∧ (∀ l ∈ racing.host, l ≠ .reset) ∧
    racing.status.legal := by decide

theorem test_racing_steps : ∃ t, step racing = .next t := ⟨_, rfl⟩

theorem test_reset_line_met : ({ pictureE4 with host := [.reset] }).turn = .host := rfl

theorem test_last_byte_met : 255 < pictureE4.params.capacity .src ∧ 255 < pictureE4.params.capacity .dst ∧
    pictureE4.params.capacity .src ≤ 256 ∧ pictureE4.params.capacity .dst ≤ 256 := by decide

/-- EngineOwnsTheBuffersWhileBusy: a line that runs while `BUSY = 1`, of each kind its last clauses name. -/
theorem test_busy_lines_met : (∃ t, runLine (.wrb .src 54 0) racing = .next t) ∧
    (∃ t, runLine (.wr .ctrl 1) racing = .next t) ∧ (∃ t, runLine (.rd .status) racing = .next t) :=
  ⟨⟨_, rfl⟩, ⟨_, rfl⟩, ⟨_, rfl⟩⟩

theorem test_interrupt_met : (∃ t, exec .clr pictureE4 = .next t) ∧
    (decode 3 = .error .undefinedOp ∧ ∃ t, issueCommand 3 pictureE4 = .next t) :=
  ⟨⟨_, rfl⟩, by decide, ⟨_, rfl⟩⟩

/-- The offsets at the edges of each plane of a 4 by 2 image (vector M7) and of a 6 by 2 container (vector M8). -/
theorem test_layout_edges : yOffset 4 0 0 = 0 ∧ yOffset 4 1 3 = 7 ∧ uOffset 4 2 0 0 = 8 ∧ uOffset 4 2 1 1 = 11 ∧
    vOffset 4 2 0 0 = 12 ∧ vOffset 4 2 1 1 = 15 ∧ pixelOffset 6 1 0 = 74 ∧ padOffset 6 0 0 = 72 ∧
    padOffset 6 1 1 = 93 ∧ containerLen 6 2 = 94 ∧ rowPadding 6 = 2 ∧ pixelOffset 6 0 5 + 2 = 71 := by decide

/-- PlanesTileThePlanarImage and RowsTileThePayload, at the first and last offset of their ranges. -/
theorem test_tiles_met : 4 % 2 = 0 ∧ 0 < 4 * 2 * 2 ∧ 15 < 4 * 2 * 2 ∧ 54 ≤ 54 ∧ 54 < containerLen 6 2 ∧
    54 ≤ 93 ∧ 93 < containerLen 6 2 ∧ 6 % 4 = 2 ∧ 4 % 4 = 0 ∧ 5 % 2 = 1 := by decide

theorem test_legal_status_met : Status.legal Status.idle ∧ Status.legal (statusError .capacity) := by decide

theorem test_load_met : ({ pictureE4 with host := loadLines [7, 8] ++ [HostLine.wait] }).status.busy = false ∧
    [(7 : Byte), 8].length ≤ pictureE4.params.srcBytes := by decide

end Sys2Proof.Tests
end

section
/-! ## Scope (00_scope.md): whose step comes next, the invariant, and what an outcome depends on -/

namespace Sys2Proof.Machine

variable {s t : State}

/-! ### Turns (R16, R254) -/

theorem turn_eq_engine_iff :
    s.turn = .engine ↔ s.status.busy = true ∧ (s.sched = [] ∨ ∃ rest, s.sched = .engine :: rest) := by
  unfold State.turn
  cases s.status.busy with
  | false => simp
  | true =>
    cases s.sched with
    | nil => simp
    | cons a rest => simp

theorem takeTurn_eq (s : State) :
    s.takeTurn = { s with sched := if s.status.busy then s.sched.tail else s.sched } := by
  unfold State.takeTurn
  split <;> rfl

theorem step_of_turn_engine (h : s.turn = .engine) : step s = .next (complete s.takeTurn) := by
  simp only [step, h]

theorem step_of_turn_host (h : s.turn = .host) : step s = hostTurn s.takeTurn := by
  simp only [step, h]

/-- After `complete` the operation has ended, with an error or with success (R254). -/
theorem complete_status_cases (s : State) :
    (∃ k, (complete s).status = statusError k) ∨ (complete s).status = statusSuccess := by
  rw [complete_eq]
  obtain ⟨k, -, hk⟩ | ⟨o, -, ho⟩ := finish_cases s (pendingRun s)
  · exact .inl ⟨k, by rw [hk]; rfl⟩
  · exact .inr (by rw [ho]; rfl)

/-- Settles O10, from the cases of the turn and of the status after `complete`. -/
theorem engineTurnCompletesTheOperation : Obligations.EngineTurnCompletesTheOperation := by
  intro s
  refine ⟨turn_eq_engine_iff, fun h => ?_, ?_⟩
  · obtain ⟨hbusy, -⟩ := turn_eq_engine_iff.mp h
    rw [step_of_turn_engine h, takeTurn_eq, if_pos hbusy]
  · obtain ⟨k, hk⟩ | hk := complete_status_cases s <;> rw [hk] <;> exact ⟨rfl, rfl⟩

/-- Settles O49, by the two cases of the host's program. -/
theorem stepRunsTheHostsNextLine : Obligations.StepRunsTheHostsNextLine := by
  intro s hturn
  rw [step_of_turn_host hturn, takeTurn_eq]
  refine ⟨fun l ls hhost => ?_, fun hhost => ?_⟩ <;> simp only [hostTurn, hhost]

/-! ### The invariant (R7, R24, R29 to R34) -/

theorem statusBusy_legal : statusBusy.legal := by decide

theorem statusSuccess_legal : statusSuccess.legal := by decide

theorem statusIdle_legal : Status.idle.legal := by decide

theorem statusError_legal (k : ErrorKind) : (statusError k).legal := by
  cases k <;> decide

/-- All that the invariant speaks of: parameters, status, results and the two buffers. -/
def State.invFields (s : State) : Params × Status × Word × Word × Word × BitVec 2 × Memory × Memory :=
  (s.params, s.status, s.dstLen, s.outW, s.outH, s.outPad, s.src, s.dst)

/-- A state that agrees on all that the invariant speaks of has the invariant too. -/
theorem State.Inv.of_invFields_eq (hs : s.Inv) (h : t.invFields = s.invFields) : t.Inv := by
  simp only [State.invFields, Prod.mk.injEq] at h
  obtain ⟨hparams, hstatus, hlen, hw, hh, hpad, hsrc, hdst⟩ := h
  obtain ⟨h1, h2, h3, h4, h5, h6, h7, h8, h9⟩ := hs
  constructor <;> simpa only [State.resultsClear, hparams, hstatus, hlen, hw, hh, hpad, hsrc, hdst]

theorem State.Inv.takeTurn (hs : s.Inv) : s.takeTurn.Inv :=
  hs.of_invFields_eq (by simp [State.invFields])

theorem State.Inv.whenIdle {f : State → State} (hs : s.Inv) (hf : (f s).Inv) : (s.whenIdle f).Inv := by
  cases hb : s.status.busy with
  | true => rwa [whenIdle_busy s f hb]
  | false => rwa [whenIdle_idle s f hb]

/-- With the result registers cleared, every legal status is in order. -/
theorem State.Inv.clearResults (hs : s.Inv) {st : Status} (hst : st.legal) :
    State.Inv { s.setResults 0 0 0 0 with status := st } :=
  { hs with
    status_legal := hst
    results_clear := fun _ => ⟨rfl, rfl, rfl, rfl⟩
    len_le := Nat.zero_le _
    pad_even := .inl rfl }

theorem State.Inv.reportError (hs : s.Inv) (k : ErrorKind) : (s.reportError k).Inv :=
  hs.clearResults (statusError_legal k)

theorem State.Inv.startOperation (hs : s.Inv) (op : Op) (filt : Filt) : (s.startOperation op filt).Inv :=
  (hs.clearResults statusBusy_legal).of_invFields_eq rfl

theorem State.Inv.acknowledge (hs : s.Inv) : s.acknowledge.Inv :=
  { hs with
    status_legal := statusIdle_legal
    results_clear := by simp [Status.idle] }

theorem State.Inv.storeByte (hs : s.Inv) {sp : Space} {off : Nat} (b : Byte) (hoff : off < s.params.capacity sp) :
    (s.storeByte sp off b).Inv := by
  cases sp with
  | src =>
    exact { hs with
      src_wf := store_wf _ _ _ hs.src_wf
      src_below := store_below _ _ _ _ hs.src_below hoff }
  | dst =>
    exact { hs with
      dst_wf := store_wf _ _ _ hs.dst_wf
      dst_below := store_below _ _ _ _ hs.dst_below hoff }

/-- An idle state with legal capacities, cleared results and empty buffers has the invariant (R40, R41). -/
theorem inv_of_empty (hparams : s.params.legal) (hstatus : s.status = .idle) (hclear : s.resultsClear)
    (hsrc : s.src = []) (hdst : s.dst = []) : s.Inv where
  params_legal := hparams
  status_legal := hstatus ▸ statusIdle_legal
  results_clear := fun _ => hclear
  len_le := by rw [hclear.1]; exact Nat.zero_le _
  pad_even := .inl hclear.2.2.2
  src_wf := hsrc ▸ List.Pairwise.nil
  dst_wf := hdst ▸ List.Pairwise.nil
  src_below := by simp [hsrc]
  dst_below := by simp [hdst]

theorem State.Inv.resetBlock (hs : s.Inv) : s.resetBlock.Inv :=
  inv_of_empty hs.params_legal rfl ⟨rfl, rfl, rfl, rfl⟩ rfl rfl

theorem inv_initial {p : Params} (hp : p.legal) : (State.initial p).Inv :=
  inv_of_empty hp rfl ⟨rfl, rfl, rfl, rfl⟩ rfl rfl

/-- Settles O24. -/
theorem resetStateHasTheInvariant : Obligations.ResetStateHasTheInvariant :=
  ⟨fun _ hp => inv_initial hp, inv_initial (by decide)⟩

/-- The padding of an even width is 0 or 2 bytes (R32, R150). -/
theorem rowPadding_of_even {w : Nat} (he : w % 2 = 0) : rowPadding w = 0 ∨ rowPadding w = 2 := by
  unfold rowPadding
  omega

/-- What a success of the pending operation has produced, `ENC` or `DEC`: a canonical buffer and a length within
the capacity, and an even padding. -/
theorem pendingRun_good {o : Output} (h : pendingRun s = .ok o) (hs : Good s.params.dstBytes s.dst) :
    Good s.params.dstBytes o.dst ∧ o.len ≤ s.params.dstBytes ∧ (o.pad = 0 ∨ o.pad = 2) := by
  unfold pendingRun at h
  cases hop : s.h.op with
  | enc =>
    simp only [hop] at h
    obtain ⟨hdst, hlen⟩ := runEnc_good _ s o h hs
    obtain ⟨d, -, hd, rfl⟩ := runEnc_ok _ s o h
    exact ⟨hdst, hlen, hd.pad_eq ▸ rowPadding_of_even hd.width_even⟩
  | dec =>
    simp only [hop] at h
    obtain ⟨hdst, hlen⟩ := runDec_good s o h hs
    obtain ⟨d, -, hd, rfl⟩ := runDec_ok s o h
    exact ⟨hdst, hlen, hd.pad_eq ▸ rowPadding_of_even hd.width_even⟩

/-- A number stored in a register reads back as no more than it was (R12). -/
theorem toNat_word_le (n : Nat) : (BitVec.ofNat 32 n).toNat ≤ n :=
  (BitVec.toNat_ofNat n 32).trans_le (Nat.mod_le _ _)

theorem State.Inv.reportSuccess (hs : s.Inv) {o : Output} (hdst : Good s.params.dstBytes o.dst)
    (hlen : o.len ≤ s.params.dstBytes) (hpad : o.pad = 0 ∨ o.pad = 2) : (s.reportSuccess o).Inv :=
  { hs with
    status_legal := statusSuccess_legal
    results_clear := by simp [statusSuccess]
    len_le := (toNat_word_le o.len).trans hlen
    pad_even := hpad.imp (congrArg (BitVec.ofNat 2)) (congrArg (BitVec.ofNat 2))
    dst_wf := hdst.1
    dst_below := hdst.2 }

/-- The engine's step keeps the invariant (R254). -/
theorem State.Inv.complete (hs : s.Inv) : (complete s).Inv := by
  rw [complete_eq]
  obtain ⟨k, -, hk⟩ | ⟨o, ho, hfin⟩ := finish_cases s (pendingRun s)
  · exact hk ▸ (hs.reportError k).of_invFields_eq rfl
  · obtain ⟨hdst, hlen, hpad⟩ := pendingRun_good ho ⟨hs.dst_wf, hs.dst_below⟩
    exact hfin ▸ (hs.reportSuccess hdst hlen hpad).of_invFields_eq rfl

/-- A write to `CMD` keeps the invariant (R250 to R253). -/
theorem State.Inv.issueCommand (hs : s.Inv) {w : Word} (h : issueCommand w s = .next t) : t.Inv := by
  obtain ⟨t', ht', hcases⟩ := issueCommand_cases w s
  obtain rfl : t' = t := Host.Outcome.next.inj (ht'.symm.trans h)
  obtain ⟨-, rfl⟩ | ⟨-, rfl⟩ | ⟨-, op, filt, rfl⟩ | ⟨-, rfl⟩ := hcases
  · exact hs
  · exact hs.acknowledge
  · exact hs.startOperation op filt
  · exact hs.reportError .illegalCommand

theorem State.Inv.readByte (hs : s.Inv) (sp : Space) (off : Nat) : (s.readByte sp off).Inv := by
  unfold State.readByte
  split <;> exact hs.of_invFields_eq rfl

/-- Every host line keeps the invariant (R110, R255 to R258, R320). -/
theorem State.Inv.runLine (hs : s.Inv) {l : HostLine} (h : runLine l s = .next t) : t.Inv := by
  obtain ⟨r, -, rfl⟩ | ⟨v, -, hissue⟩ | ⟨v, -, rfl⟩ | ⟨v, -, rfl⟩ | ⟨v, -, rfl⟩ | ⟨v, -, rfl⟩ | ⟨r, v, -, rfl⟩ |
    ⟨sp, off, -, -, rfl⟩ | ⟨sp, off, b, -, hoff, rfl⟩ | ⟨-, rfl⟩ | ⟨-, again, rfl⟩ | ⟨-, rfl⟩ :=
    runLine_cases l s t h
  · exact hs.of_invFields_eq rfl
  · exact hs.issueCommand hissue
  · exact hs.of_invFields_eq rfl
  · exact hs.whenIdle (hs.of_invFields_eq rfl)
  · exact hs.whenIdle (hs.of_invFields_eq rfl)
  · exact hs.whenIdle (hs.of_invFields_eq rfl)
  · exact hs
  · exact hs.readByte sp off
  · exact hs.whenIdle (hs.storeByte b hoff)
  · exact hs.resetBlock
  · exact hs.of_invFields_eq rfl
  · exact hs.of_invFields_eq rfl

/-- Settles O25: the engine's step, a waiting host and every host line keep the invariant. -/
theorem stepKeepsTheInvariant : Obligations.StepKeepsTheInvariant := by
  intro s t hs h
  obtain ⟨-, rfl⟩ | ⟨-, -, rfl⟩ | ⟨-, l, ls, -, hline⟩ := step_cases s t h
  · exact hs.takeTurn.complete
  · exact hs.takeTurn
  · have hbefore : State.Inv { s.takeTurn with host := ls } := hs.takeTurn.of_invFields_eq rfl
    exact hbefore.runLine hline

end Sys2Proof.Machine
end

section
/-! ## The outcome of an operation depends only on its inputs (R17) -/

namespace Sys2Proof.Machine

/-! ### Every offset of each layout is written (R68 to R70) -/

/-- A flat position in a picture of `h` rows of `n` is the position of some row and column. -/
theorem row_cover {n h k : Nat} (hk : k < h * n) : ∃ r c, r < h ∧ c < n ∧ k = r * n + c := by
  have hn : 0 < n := Nat.pos_of_ne_zero (by rintro rfl; simp at hk)
  exact ⟨k / n, k % n, Nat.div_lt_of_lt_mul (Nat.mul_comm h n ▸ hk), Nat.mod_lt _ hn, (Nat.div_add_mod' k n).symm⟩

/-- The three planes cover the planar image. -/
theorem planar_cover {w h a : Nat} (he : w % 2 = 0) (ha : a < planarLen w h) :
    (∃ r x, r < h ∧ x < w ∧ a = yOffset w r x) ∨ (∃ r c, r < h ∧ c < w / 2 ∧ a = uOffset w h r c) ∨
      (∃ r c, r < h ∧ c < w / 2 ∧ a = vOffset w h r c) := by
  have hhalf := half_area w h he
  have hwhole : w * h = w * h / 2 * 2 := by
    rw [Nat.div_mul_cancel (Nat.dvd_trans (Nat.dvd_of_mod_eq_zero he) (Nat.dvd_mul_right w h))]
  unfold planarLen at ha
  by_cases hy : a < w * h
  · obtain ⟨r, x, hr, hx, rfl⟩ := row_cover (k := a) (Nat.mul_comm w h ▸ hy)
    exact .inl ⟨r, x, hr, hx, rfl⟩
  · by_cases hu : a < w * h + w * h / 2
    · obtain ⟨r, c, hr, hc, hk⟩ := row_cover (h := h) (n := w / 2) (k := a - w * h) (by omega)
      exact .inr (.inl ⟨r, c, hr, hc, by unfold uOffset; omega⟩)
    · obtain ⟨r, c, hr, hc, hk⟩ := row_cover (h := h) (n := w / 2) (k := a - w * h - w * h / 2) (by omega)
      exact .inr (.inr ⟨r, c, hr, hc, by unfold vOffset; omega⟩)

/-- The pixels and the padding of the rows cover the payload of a container. -/
theorem payload_cover {w h a : Nat} (hlow : hdrLen ≤ a) (ha : a < containerLen w h) :
    (∃ y x c, y < h ∧ x < w ∧ c < 3 ∧ a = pixelOffset w y x + c) ∨
      (∃ y k, y < h ∧ k < rowPadding w ∧ a = padOffset w y k) := by
  obtain ⟨y, k, hy, hlt, hsum⟩ : ∃ y k, y < h ∧ k < stride w ∧ a - hdrLen = y * stride w + k :=
    row_cover (by rw [Nat.mul_comm h]; unfold containerLen payloadLen at ha; omega)
  unfold stride at hlt
  by_cases hk : k < w * 3
  · exact .inl ⟨y, k / 3, k % 3, hy, by omega, by omega, by unfold pixelOffset; omega⟩
  · exact .inr ⟨y, k - w * 3, hy, by omega, by unfold padOffset; omega⟩

/-- The fields of R231 cover the header. -/
theorem header_cover {w h a : Nat} (ha : a < hdrLen) : ∃ f ∈ headerFields w h, f.1 ≤ a ∧ a < f.1 + f.2.1 := by
  unfold hdrLen at ha
  simp only [headerFields, List.exists_mem_cons_iff]
  omega

/-! ### What each conversion leaves depends only on the pixels or samples it reads -/

/-- Below `n` both buffers hold a stored byte at every address, and the same one. -/
def SameOutput (n : Nat) (m m' : Memory) : Prop := ∀ a < n, ∃ b, lookup m a = some b ∧ lookup m' a = some b

/-- `ENC` writes the whole planar image from the pixels of the container alone (R174 to R176): neither what the
buffer held before nor the chroma history at the start matters. -/
theorem encPicture_sameOutput {rd rd' : Nat → Byte} (filt : Filt) {w h : Nat} (k k' : Walk) (he : w % 2 = 0)
    (hrd : ∀ y < h, ∀ x < w, packedPixel rd w y x = packedPixel rd' w y x) :
    SameOutput (planarLen w h) (encPicture rd filt w h k).dst (encPicture rd' filt w h k').dst := by
  have hyuv {r x : Nat} (hr : r < h) (hx : x < w) : encYuv rd w (h - 1 - r) x = encYuv rd' w (h - 1 - r) x :=
    congrArg fwd (hrd _ (by omega) x hx)
  intro a ha
  obtain ⟨r, x, hr, hx, rfl⟩ | ⟨r, c, hr, hc, rfl⟩ | ⟨r, c, hr, hc, rfl⟩ := planar_cover he ha
  · rw [encPicture_luma _ _ _ _ _ _ _ he hr hx, encPicture_luma _ _ _ _ _ _ _ he hr hx, hyuv hr hx]
    exact ⟨_, rfl, rfl⟩
  · rw [encPicture_chromaU _ _ _ _ _ _ _ he hr hc, encPicture_chromaU _ _ _ _ _ _ _ he hr hc,
      hyuv hr (by omega), hyuv hr (by omega)]
    exact ⟨_, rfl, rfl⟩
  · rw [encPicture_chromaV _ _ _ _ _ _ _ he hr hc, encPicture_chromaV _ _ _ _ _ _ _ he hr hc,
      hyuv hr (by omega), hyuv hr (by omega)]
    exact ⟨_, rfl, rfl⟩

/-- The header a successful `DEC` leaves, byte by byte of each field (R231). -/
theorem decPicture_header (rd : Nat → Byte) {w h k : Nat} (m : Memory) (hid : Hidden) {f : Field}
    (hf : f ∈ headerFields w h) (hk : k < f.2.1) (hlt : f.1 + k < hdrLen) :
    lookup (decPicture rd w h { dst := serializeHeader m w h, h := hid }).dst (f.1 + k) =
      some (BitVec.ofNat 8 (f.2.2 / 256 ^ k)) := by
  rw [decPicture_outside _ _ _ _ _ (.inl hlt), serializeHeader_field m w h f k hf hk]

/-- `DEC` writes the whole container from the samples of the planar image alone (R205, R206, R231). -/
theorem decPicture_sameOutput {rd rd' : Nat → Byte} {w h : Nat} (m m' : Memory) (hid hid' : Hidden)
    (hrd : ∀ i < h, ∀ j < w, planarPixel rd w h i j = planarPixel rd' w h i j) :
    SameOutput (containerLen w h) (decPicture rd w h { dst := serializeHeader m w h, h := hid }).dst
      (decPicture rd' w h { dst := serializeHeader m' w h, h := hid' }).dst := by
  intro a ha
  by_cases hhdr : a < hdrLen
  · obtain ⟨f, hf, hle, hlt⟩ := header_cover (w := w) (h := h) hhdr
    obtain ⟨k, rfl⟩ := Nat.exists_eq_add_of_le hle
    have hk : k < f.2.1 := by omega
    exact ⟨_, decPicture_header rd m hid hf hk hhdr, decPicture_header rd' m' hid' hf hk hhdr⟩
  · obtain ⟨y, x, c, hy, hx, hc, rfl⟩ | ⟨y, k, hy, hk, rfl⟩ := payload_cover (by omega) ha
    · rw [← flip_flip h y hy, decPicture_pixel _ _ _ _ _ _ _ (by omega) hx hc,
        decPicture_pixel _ _ _ _ _ _ _ (by omega) hx hc, hrd _ (by omega) x hx]
      exact ⟨_, rfl, rfl⟩
    · exact ⟨_, decPicture_padding _ _ _ _ _ _ hy hk, decPicture_padding _ _ _ _ _ _ hy hk⟩

/-! ### Where the operations read -/

/-- Readers that agree on a container's bytes agree on its pixels (R173). -/
theorem packedPixel_congr {rd rd' : Nat → Byte} {w h y x : Nat} (hrd : ∀ a < containerLen w h, rd a = rd' a)
    (hy : y < h) (hx : x < w) : packedPixel rd w y x = packedPixel rd' w y x := by
  have hbyte {c : Nat} (hc : c < 3) : rd (pixelOffset w y x + c) = rd' (pixelOffset w y x + c) :=
    hrd _ (pixelOffset_lt w h y x c hy hx hc)
  have hb : rd (pixelOffset w y x) = rd' (pixelOffset w y x) := hbyte (c := 0) (by omega)
  simp only [packedPixel, hb, hbyte (c := 1) (by omega), hbyte (c := 2) (by omega)]

/-- Readers that agree on a planar image's bytes agree on its samples (R204). -/
theorem planarPixel_congr {rd rd' : Nat → Byte} {w h i j : Nat} (he : w % 2 = 0)
    (hrd : ∀ a < planarLen w h, rd a = rd' a) (hi : i < h) (hj : j < w) :
    planarPixel rd w h i j = planarPixel rd' w h i j := by
  have harea := yOffset_lt_area w h i j hi hj
  have heven : w * h % 2 = 0 := by rw [Nat.mul_mod, he, Nat.zero_mul, Nat.zero_mod]
  unfold yOffset at harea
  unfold planarLen at hrd
  simp only [planarPixel, yOffset, chromaIndex]
  rw [hrd _ (by omega), hrd _ (by omega), hrd _ (by omega)]

/-- Readers that agree below `HDR_LEN` parse alike (R151). -/
theorem parse_congr {rd rd' : Nat → Byte} (hrd : ∀ a < hdrLen, rd a = rd' a) : parse rd = parse rd' := by
  have hle (a n : Nat) (h : a + n ≤ hdrLen) : readLE rd a n = readLE rd' a n :=
    readLE_congr rd rd' a n (fun k hk => hrd _ (by omega))
  have hformat : badFormat rd = badFormat rd' := by
    simp only [badFormat, headerSignature, headerBitsPerPixel, headerCompression, hrd 0 (by decide),
      hrd 1 (by decide), hle 28 2 (by decide), hle 30 4 (by decide)]
  have hwidth : headerWidth rd = headerWidth rd' := congrArg sext32 (hle 18 4 (by decide))
  have hheight : headerHeight rd = headerHeight rd' := congrArg sext32 (hle 22 4 (by decide))
  simp only [parse, hformat, hwidth, hheight]

/-- The checks of `ENC` read the header only where `SRC_LEN` says there is one (R171). -/
theorem encChecks_congr (p : Params) {n : Nat} {rd rd' : Nat → Byte}
    (hrd : hdrLen ≤ n → ∀ a < hdrLen, rd a = rd' a) : encChecks p n rd = encChecks p n rd' := by
  by_cases hn : n < hdrLen
  · simp only [encChecks, if_pos hn]
  · simp only [encChecks, parse_congr (hrd (by omega))]

/-! ### Runs on the same inputs -/

/-- Two states agree on all that R17 lets an outcome depend on. -/
structure SameInputs (s t : State) : Prop where
  params : s.params = t.params
  op : s.h.op = t.h.op
  filt : s.h.filt = t.h.filt
  width : s.width = t.width
  height : s.height = t.height
  srcLen : s.srcLen = t.srcLen
  src : ∀ a < s.srcLen.toNat, (a < 54 ∨ a < s.params.srcBytes) → s.byteAt .src a = t.byteAt .src a

/-- Two runs of an operation end alike: with one error, or with one report and one output. -/
inductive SameRun : Except ErrorKind Output → Except ErrorKind Output → Prop
  | error (k : ErrorKind) : SameRun (.error k) (.error k)
  | ok (o : Output) (m : Memory) (h : SameOutput o.len o.dst m) : SameRun (.ok o) (.ok { o with dst := m })

variable {s t : State}

theorem runEnc_sameRun (hst : SameInputs s t) (filt : Filt) : SameRun (runEnc filt s) (runEnc filt t) := by
  have hchecks : encChecks t.params t.srcLenOperand t.srcReader = encChecks s.params s.srcLenOperand s.srcReader := by
    rw [← hst.params, State.srcLenOperand, ← hst.srcLen]
    exact (encChecks_congr s.params (fun hn a ha => hst.src a (Nat.lt_of_lt_of_le ha hn) (.inl ha))).symm
  unfold runEnc
  rw [hchecks]
  cases hd : encChecks s.params s.srcLenOperand s.srcReader with
  | error k => exact .error k
  | ok d =>
    obtain ⟨-, hparse, hlen, hfits, -⟩ := encChecks_ok _ _ _ _ hd
    obtain ⟨-, hdims, rfl⟩ := parse_ok _ _ hparse
    refine .ok _ _ (encPicture_sameOutput filt _ _ (dimsOf_good _ _ hdims).width_even (fun y hy x hx => ?_))
    exact packedPixel_congr (fun a ha => hst.src a (Nat.lt_of_lt_of_le ha hlen)
      (.inr (Nat.lt_of_lt_of_le ha hfits))) hy hx

theorem runDec_sameRun (hst : SameInputs s t) : SameRun (runDec s) (runDec t) := by
  unfold runDec
  rw [← hst.params, State.srcLenOperand, State.srcLenOperand, ← hst.srcLen, State.widthOperand, State.widthOperand,
    ← hst.width, State.heightOperand, State.heightOperand, ← hst.height]
  cases hd : decChecks s.params s.srcLen.toNat s.width.toInt s.height.toInt with
  | error k => exact .error k
  | ok d =>
    obtain ⟨hdims, rfl, hlen, hfits, -⟩ := decChecks_ok _ _ _ _ _ hd
    refine .ok _ _ (decPicture_sameOutput _ _ _ _ (fun i hi j hj => ?_))
    exact planarPixel_congr (dimsOf_good _ _ hdims).width_even
      (fun a ha => hst.src a (by omega) (.inr (by omega))) hi hj

/-- The pending operation's run depends only on the inputs (R17). -/
theorem pendingRun_sameRun (hst : SameInputs s t) : SameRun (pendingRun s) (pendingRun t) := by
  unfold pendingRun
  rw [← hst.op, ← hst.filt]
  cases s.h.op with
  | enc => exact runEnc_sameRun hst s.h.filt
  | dec => exact runDec_sameRun hst

/-- Runs that end alike are reported alike (R254), whatever else the two states hold. -/
theorem finish_sameOutcome (s t : State) {r r' : Except ErrorKind Output} (h : SameRun r r') :
    SameOutcome (s.finish r) (t.finish r') := by
  cases h with
  | error k => exact ⟨rfl, rfl, rfl, rfl, rfl, fun a ha => absurd ha (Nat.not_lt_zero a)⟩
  | ok o m hsame =>
    refine ⟨rfl, rfl, rfl, rfl, rfl, fun a ha => ?_⟩
    obtain ⟨b, hb, hb'⟩ := hsame a (Nat.lt_of_lt_of_le ha (toNat_word_le o.len))
    exact (State.byteAt_of_lookup (s.finish (.ok o)) .dst a b hb).trans
      (State.byteAt_of_lookup (t.finish (.ok { o with dst := m })) .dst a b hb').symm

/-- Settles O20: the runs end alike, and are reported alike. -/
theorem outcomeDependsOnlyOnTheInputs : Obligations.OutcomeDependsOnlyOnTheInputs := by
  intro s t hparams hop hfilt hwidth hheight hlen hsrc
  rw [complete_eq, complete_eq]
  exact finish_sameOutcome s t (pendingRun_sameRun ⟨hparams, hop, hfilt, hwidth, hheight, hlen, hsrc⟩)

end Sys2Proof.Machine
end

section
/-! ## State (10_state.md): the register map, the statuses, the reset values, and what commands leave alone -/

namespace Sys2Proof

/-! ### The register map (R21, R108) -/

theorem regAt_regOffset (r : Reg) : regAt (regOffset r) = some r := by
  cases r <;> rfl

theorem regOffset_aligned (r : Reg) : regOffset r % 4 = 0 ∧ regOffset r < 0x28 := by
  cases r <;> decide

theorem regOffset_of_regAt {off : Nat} {r : Reg} (h : regAt off = some r) : regOffset r = off := by
  unfold regAt at h
  split at h <;> cases h <;> rfl

/-- The first ten words of the `REG` space each have a register. -/
theorem regAt_word : ∀ k < 10, regAt (4 * k) ≠ none := by decide

/-- The offsets that have no register (R61). -/
theorem regAt_eq_none_iff (off : Nat) : regAt off = none ↔ off % 4 ≠ 0 ∨ 0x28 ≤ off := by
  constructor
  · intro h
    by_contra! hoff
    obtain ⟨halign, hlt⟩ := hoff
    obtain ⟨k, rfl⟩ := Nat.dvd_of_mod_eq_zero halign
    exact regAt_word k (by omega) h
  · intro h
    cases hr : regAt off with
    | none => rfl
    | some r =>
      obtain ⟨halign, hlt⟩ := regOffset_aligned r
      rw [regOffset_of_regAt hr] at halign hlt
      omega

/-- Settles O4. -/
theorem registerMapIsOneToOne : Obligations.RegisterMapIsOneToOne :=
  ⟨by decide, fun r => ⟨regAt_regOffset r, regOffset_aligned r⟩, fun _ _ => regOffset_of_regAt, regAt_eq_none_iff⟩

end Sys2Proof

namespace Sys2Proof.Machine

variable {s t : State}

/-! ### The statuses (R24) -/

/-- Each of the codes of R280 that the block reports is the code of an error kind. -/
theorem exists_errorCode {code : BitVec 4} (h : code = 1 ∨ code = 2 ∨ code = 3 ∨ code = 5 ∨ code = 6) :
    ∃ k, code = errorCode k := by
  obtain rfl | rfl | rfl | rfl | rfl := h
  exacts [⟨.unsupportedFormat, rfl⟩, ⟨.invalidDimensions, rfl⟩, ⟨.sizeMismatch, rfl⟩, ⟨.capacity, rfl⟩,
    ⟨.illegalCommand, rfl⟩]

/-- The legal statuses are those the operations set: idle, busy, success and one for each kind of error. -/
theorem Status.legal_iff (st : Status) :
    st.legal ↔ st = .idle ∨ st = statusBusy ∨ st = statusSuccess ∨ ∃ k, st = statusError k := by
  constructor
  · obtain ⟨busy, done, err, code⟩ := st
    rintro ⟨hbusy, hdone, herr, hcode⟩
    obtain rfl : err = decide (code ≠ 0) := herr
    by_cases hzero : code = 0
    · subst hzero
      cases busy with
      | true =>
        obtain ⟨rfl, -⟩ := hbusy rfl
        exact .inr (.inl rfl)
      | false =>
        cases done with
        | false => exact .inl rfl
        | true => exact .inr (.inr (.inl rfl))
    · obtain ⟨k, rfl⟩ := exists_errorCode (hcode.resolve_left hzero)
      obtain rfl : busy = false := Bool.eq_false_iff.mpr (fun hb => hzero (hbusy hb).2)
      obtain rfl : done = true := hdone hzero
      exact .inr (.inr (.inr ⟨k, by rw [decide_eq_true hzero, statusError]⟩))
  · rintro (rfl | rfl | rfl | ⟨k, rfl⟩)
    · exact statusIdle_legal
    · exact statusBusy_legal
    · exact statusSuccess_legal
    · exact statusError_legal k

theorem whenIdle_status {f : State → State} (hf : (f s).status = s.status) :
    (s.whenIdle f).status = s.status := by
  cases hb : s.status.busy with
  | true => rw [whenIdle_busy s f hb]
  | false => rw [whenIdle_idle s f hb, hf]

theorem storeByte_status (s : State) (sp : Space) (off : Nat) (b : Byte) :
    (s.storeByte sp off b).status = s.status := by
  cases sp <;> rfl

theorem readByte_status (s : State) (sp : Space) (off : Nat) : (s.readByte sp off).status = s.status := by
  unfold State.readByte
  split <;> rfl

/-- A host line changes `STATUS` only by a write to `CMD` or by `RESET` (R255 to R258, R320). -/
theorem runLine_status_cases {l : HostLine} (h : runLine l s = .next t) :
    t.status = s.status ∨ (∃ v, l = .wr .cmd v ∧ issueCommand v s = .next t) ∨
      (l = .reset ∧ t.status = .idle) := by
  obtain ⟨r, -, rfl⟩ | hissue | ⟨v, -, rfl⟩ | ⟨v, -, rfl⟩ | ⟨v, -, rfl⟩ | ⟨v, -, rfl⟩ | ⟨r, v, -, rfl⟩ |
    ⟨sp, off, -, -, rfl⟩ | ⟨sp, off, b, -, -, rfl⟩ | ⟨hl, rfl⟩ | ⟨-, again, rfl⟩ | ⟨-, rfl⟩ :=
    runLine_cases l s t h
  · exact .inl rfl
  · exact .inr (.inl hissue)
  · exact .inl rfl
  · exact .inl (whenIdle_status rfl)
  · exact .inl (whenIdle_status rfl)
  · exact .inl (whenIdle_status rfl)
  · exact .inl rfl
  · exact .inl (readByte_status s sp off)
  · exact .inl (whenIdle_status (storeByte_status s sp off b))
  · exact .inr (.inr ⟨hl, rfl⟩)
  · exact .inl rfl
  · exact .inl rfl

/-- The engine's step leaves a legal status whatever it was before (R254). -/
theorem complete_status_legal (s : State) : (complete s).status.legal := by
  obtain ⟨k, hk⟩ | hk := complete_status_cases s
  · exact hk ▸ statusError_legal k
  · exact hk ▸ statusSuccess_legal

/-- A write to `CMD` keeps a legal status legal (R250 to R253). -/
theorem issueCommand_status_legal (hs : s.status.legal) {w : Word} (h : issueCommand w s = .next t) :
    t.status.legal := by
  obtain ⟨t', ht', hcases⟩ := issueCommand_cases w s
  obtain rfl : t' = t := Host.Outcome.next.inj (ht'.symm.trans h)
  obtain ⟨-, rfl⟩ | ⟨-, rfl⟩ | ⟨-, op, filt, rfl⟩ | ⟨-, rfl⟩ := hcases
  · exact hs
  · exact statusIdle_legal
  · exact statusBusy_legal
  · exact statusError_legal .illegalCommand

/-- Every host line keeps a legal status legal. -/
theorem runLine_status_legal (hs : s.status.legal) {l : HostLine} (h : runLine l s = .next t) : t.status.legal := by
  obtain hsame | ⟨v, -, hissue⟩ | ⟨-, hidle⟩ := runLine_status_cases h
  · exact hsame ▸ hs
  · exact issueCommand_status_legal hs hissue
  · exact hidle ▸ statusIdle_legal

/-- Every step keeps a legal status legal (R24). -/
theorem step_status_legal (hs : s.status.legal) (h : step s = .next t) : t.status.legal := by
  have htaken : s.takeTurn.status.legal := s.takeTurn_status ▸ hs
  obtain ⟨-, rfl⟩ | ⟨-, -, rfl⟩ | ⟨-, l, ls, -, hline⟩ := step_cases s t h
  · exact complete_status_legal s.takeTurn
  · exact htaken
  · exact runLine_status_legal (s := { s.takeTurn with host := ls }) htaken hline

/-- The eight words a legal status reads as (R255, R280). -/
theorem statusWord_of_legal {st : Status} (h : st.legal) :
    statusWord st ∈ ([0x000, 0x001, 0x002, 0x106, 0x206, 0x306, 0x506, 0x606] : List Word) := by
  obtain rfl | rfl | rfl | ⟨k, rfl⟩ := st.legal_iff.mp h
  · decide
  · decide
  · decide
  · cases k <;> decide

/-- Settles O26: the status of reset is the idle one, and the steps keep a legal status legal. -/
theorem statusReadsOneOfEightWords : Obligations.StatusReadsOneOfEightWords :=
  ⟨fun _ => statusIdle_legal, fun _ _ => step_status_legal, fun _ => statusWord_of_legal⟩

/-! ### What commands and the engine leave alone (R21, R250, R290) -/

/-- All that `State.KeepsInputs` speaks of, the stored contents of `SRC` in place of its bytes. -/
def State.inputFields (s : State) :
    Word × Word × Word × Bool × Memory × Params × Nat × List HostLine × List Agent × List Word :=
  (s.width, s.height, s.srcLen, s.ie, s.src, s.params, s.resets, s.host, s.sched, s.results)

theorem State.KeepsInputs.of_inputFields_eq (h : t.inputFields = s.inputFields) : s.KeepsInputs t := by
  simp only [State.inputFields, Prod.mk.injEq] at h
  obtain ⟨hwidth, hheight, hlen, hie, hsrc, hparams, hresets, hhost, hsched, hresults⟩ := h
  exact ⟨hwidth, hheight, hlen, hie, fun a => State.byteAt_congr t s .src a hsrc hresets, hparams, hresets, hhost,
    hsched, hresults⟩

/-- The end of an operation, with an error or with success, leaves the inputs alone (R178, R207, R290). -/
theorem finish_keepsInputs (s : State) (r : Except ErrorKind Output) : s.KeepsInputs (s.finish r) := by
  cases r with
  | error k => exact .of_inputFields_eq rfl
  | ok o => exact .of_inputFields_eq rfl

theorem complete_keepsInputs (s : State) : s.KeepsInputs (complete s) :=
  complete_eq s ▸ finish_keepsInputs s (pendingRun s)

/-- A write to `CMD` always gives a next state, which holds the inputs and every `DST` byte as before (R250). -/
theorem issueCommand_keeps (w : Word) (s : State) :
    ∃ t, issueCommand w s = .next t ∧ s.KeepsInputs t ∧ ∀ a, t.byteAt .dst a = s.byteAt .dst a := by
  obtain ⟨t, ht, hcases⟩ := issueCommand_cases w s
  refine ⟨t, ht, ?_⟩
  obtain ⟨-, rfl⟩ | ⟨-, rfl⟩ | ⟨-, op, filt, rfl⟩ | ⟨-, rfl⟩ := hcases
  · exact ⟨.of_inputFields_eq rfl, fun _ => rfl⟩
  · exact ⟨.of_inputFields_eq rfl, s.acknowledge_byteAt .dst⟩
  · exact ⟨.of_inputFields_eq rfl, s.startOperation_byteAt op filt .dst⟩
  · exact ⟨.of_inputFields_eq rfl, s.reportError_byteAt .illegalCommand .dst⟩

/-- Settles O19. -/
theorem commandsKeepTheInputs : Obligations.CommandsKeepTheInputs :=
  fun s => ⟨complete_keepsInputs s, fun w => issueCommand_keeps w s⟩

/-! ### The state after reset (R40, R41) -/

theorem initial_readReg (p : Params) (r : Reg) : (State.initial p).readReg r = 0 := by
  cases r with
  | status => exact (by decide : statusWord .idle = 0)
  | ctrl => exact (by decide : (0#31 ++ BitVec.ofBool false : Word) = 0)
  | outPad => exact (by decide : (0#30 ++ 0#2 : Word) = 0)
  | cmd | width | height | srcLen | dstLen | outW | outH => rfl

theorem initial_byteAt (p : Params) (sp : Space) (a : Nat) :
    (State.initial p).byteAt sp a = Config.resetByte 0 sp a := by
  cases sp <;> rfl

/-- Settles O30. -/
theorem resetValuesOfEveryRegister : Obligations.ResetValuesOfEveryRegister :=
  fun p => ⟨initial_readReg p, rfl, rfl, rfl, initial_byteAt p⟩

end Sys2Proof.Machine
end

section
/-! ## Memory (20_memory.md): the two layouts, whole output or none, host accesses, and the fetched command word -/

namespace Sys2Proof.Machine

variable {s t : State}

/-! ### A host access beyond a buffer (R65, R260) -/

theorem runLine_rdb_of_capacity_le {sp : Space} {off : Nat} (h : s.params.capacity sp ≤ off) :
    runLine (.rdb sp off) s = .fault (.noSuchByte sp off) :=
  if_neg (Nat.not_lt.mpr h)

theorem runLine_wrb_of_capacity_le {sp : Space} {off : Nat} (b : Byte) (h : s.params.capacity sp ≤ off) :
    runLine (.wrb sp off b) s = .fault (.noSuchByte sp off) :=
  if_neg (Nat.not_lt.mpr h)

/-- Settles O35. -/
theorem accessBeyondTheBufferStops : Obligations.AccessBeyondTheBufferStops :=
  fun _ _ _ b h => ⟨runLine_rdb_of_capacity_le h, runLine_wrb_of_capacity_le b h⟩

/-! ### The command word the coming step writes (R73, R250) -/

/-- A word is fetched where the host moves next and its next line writes that word to `CMD`. -/
theorem fetch_eq_some_iff {w : Word} :
    s.fetch = some w ↔ s.turn = .host ∧ ∃ ls, s.host = .wr .cmd w :: ls := by
  constructor
  · intro h
    unfold State.fetch at h
    split at h
    · rename_i hturn hhost
      obtain rfl := Option.some.inj h
      exact ⟨hturn, _, hhost⟩
    · cases h
  · rintro ⟨hturn, ls, hhost⟩
    simp only [State.fetch, hturn, hhost]

theorem issueCommand_of_decode_ok {w : Word} {i : Instr} (h : decode w = .ok i) : issueCommand w s = exec i s := by
  simp only [issueCommand, h]

/-- Settles O5: the fetched word stands in the host's next line, whose run is the word's issue. -/
theorem stepRunsTheDecodedCommand : Obligations.StepRunsTheDecodedCommand := by
  intro s w i hfetch hdecode
  obtain ⟨hturn, ls, hhost⟩ := fetch_eq_some_iff.mp hfetch
  rw [(stepRunsTheHostsNextLine s hturn).1 _ ls hhost, hhost]
  exact issueCommand_of_decode_ok hdecode

/-- Wherever a command word is placed, the host moves next: an entry of the schedule is added while `BUSY = 1`. -/
theorem placeCommand_turn (s : State) (w : Word) : (s.placeCommand w).turn = .host := by
  cases hb : s.status.busy with
  | true => simp [State.turn, State.placeCommand, hb]
  | false => simp [State.turn, State.placeCommand, hb]

theorem placeCommand_fetch (s : State) (w : Word) : (s.placeCommand w).fetch = some w :=
  fetch_eq_some_iff.mpr ⟨placeCommand_turn s w, s.host, rfl⟩

/-- A word of 32 bits is placed as it is. -/
theorem withFetchWord_toNat (s : State) (w : Word) : s.withFetchWord 32 w.toNat = s.placeCommand w := by
  rw [State.withFetchWord, Nat.mod_eq_of_lt w.isLt, BitVec.ofNat_toNat, BitVec.setWidth_eq]

/-- Settles O6. -/
theorem placedWordIsFetched : Obligations.PlacedWordIsFetched := by
  intro s w
  rw [withFetchWord_toNat]
  exact ⟨placeCommand_fetch s w, rfl⟩

/-! ### The planar layout (R69, R70) -/

theorem vOffset_range {w h r c : Nat} (he : w % 2 = 0) (hr : r < h) (hc : c < w / 2) :
    w * h + w * h / 2 ≤ vOffset w h r c ∧ vOffset w h r c < w * h * 2 :=
  ⟨vOffset_ge w h r c, vOffset_lt w h r c he hr hc⟩

theorem yOffset_inj {w r x r' x' : Nat} (hx : x < w) (hx' : x' < w) (h : yOffset w r x = yOffset w r' x') :
    r = r' ∧ x = x' :=
  row_inj r x r' x' w hx hx' h

theorem uOffset_inj {w h r c r' c' : Nat} (hc : c < w / 2) (hc' : c' < w / 2)
    (heq : uOffset w h r c = uOffset w h r' c') : r = r' ∧ c = c' :=
  row_inj r c r' c' (w / 2) hc hc' (Nat.add_left_cancel heq)

theorem vOffset_inj {w h r c r' c' : Nat} (hc : c < w / 2) (hc' : c' < w / 2)
    (heq : vOffset w h r c = vOffset w h r' c') : r = r' ∧ c = c' :=
  row_inj r c r' c' (w / 2) hc hc' (Nat.add_left_cancel heq)

/-- Settles O45: cover, the three ranges, and one sample to an offset in each plane. -/
theorem planesTileThePlanarImage : Obligations.PlanesTileThePlanarImage :=
  fun w h he =>
    ⟨fun _ ha => planar_cover he ha,
      fun r x hr hx => yOffset_lt_area w h r x hr hx,
      fun r c hr hc => uOffset_range w h r c he hr hc,
      fun _ _ hr hc => vOffset_range he hr hc,
      fun _ _ _ _ _ hx _ hx' => yOffset_inj hx hx',
      fun _ _ _ _ _ hc _ hc' => uOffset_inj hc hc',
      fun _ _ _ _ _ hc _ hc' => vOffset_inj hc hc'⟩

/-! ### The packed layout (R68, R70) -/

/-- Where the next disk row begins. -/
theorem pixelOffset_succ_zero (w y : Nat) : pixelOffset w (y + 1) 0 = hdrLen + (y + 1) * stride w := rfl

/-- A pixel byte by its position in its disk row. -/
theorem pixelOffset_add (w y x c : Nat) : pixelOffset w y x + c = hdrLen + (y * stride w + (x * 3 + c)) := by
  unfold pixelOffset
  omega

/-- A padding byte by its position in its disk row: after the `w * 3` pixel bytes. -/
theorem padOffset_eq (w y k : Nat) : padOffset w y k = hdrLen + (y * stride w + (w * 3 + k)) := by
  unfold padOffset
  omega

theorem pixelByte_lt_rowPixels {w x c : Nat} (hx : x < w) (hc : c < 3) : x * 3 + c < w * 3 := by omega

theorem rowPixels_le_stride (w : Nat) : w * 3 ≤ stride w := Nat.le_add_right _ _

theorem pixelByte_lt_stride {w x c : Nat} (hx : x < w) (hc : c < 3) : x * 3 + c < stride w :=
  (pixelByte_lt_rowPixels hx hc).trans_le (rowPixels_le_stride w)

theorem padByte_lt_stride {w k : Nat} (hk : k < rowPadding w) : w * 3 + k < stride w :=
  Nat.add_lt_add_left hk _

theorem pixelByte_inj {w y x c y' x' c' : Nat} (hx : x < w) (hc : c < 3) (hx' : x' < w) (hc' : c' < 3)
    (h : pixelOffset w y x + c = pixelOffset w y' x' + c') : y = y' ∧ x = x' ∧ c = c' := by
  rw [pixelOffset_add, pixelOffset_add] at h
  obtain ⟨hy, hrest⟩ :=
    row_inj _ _ _ _ _ (pixelByte_lt_stride hx hc) (pixelByte_lt_stride hx' hc') (Nat.add_left_cancel h)
  exact ⟨hy, by omega, by omega⟩

theorem padOffset_inj {w y k y' k' : Nat} (hk : k < rowPadding w) (hk' : k' < rowPadding w)
    (h : padOffset w y k = padOffset w y' k') : y = y' ∧ k = k' := by
  rw [padOffset_eq, padOffset_eq] at h
  obtain ⟨hy, hrest⟩ := row_inj _ _ _ _ _ (padByte_lt_stride hk) (padByte_lt_stride hk') (Nat.add_left_cancel h)
  exact ⟨hy, Nat.add_left_cancel hrest⟩

/-- Within a disk row the padding follows the pixels. -/
theorem pixelByte_lt_padOffset {w x c : Nat} (y k : Nat) (hx : x < w) (hc : c < 3) :
    pixelOffset w y x + c < padOffset w y k := by
  have hpos := pixelByte_lt_rowPixels hx hc
  rw [pixelOffset_add, padOffset_eq]
  omega

/-- Were they one offset, they would be at one position of one row, where the padding follows the pixels. -/
theorem pixelByte_ne_padOffset {w x c k : Nat} (y y' : Nat) (hx : x < w) (hc : c < 3) (hk : k < rowPadding w) :
    pixelOffset w y x + c ≠ padOffset w y' k := by
  intro h
  rw [pixelOffset_add, padOffset_eq] at h
  obtain ⟨-, hpos⟩ := row_inj _ _ _ _ _ (pixelByte_lt_stride hx hc) (padByte_lt_stride hk) (Nat.add_left_cancel h)
  have hlt := pixelByte_lt_rowPixels hx hc
  omega

theorem hdrLen_le_pixelOffset (w y x : Nat) : hdrLen ≤ pixelOffset w y x := by
  rw [← Nat.add_zero (pixelOffset w y x), pixelOffset_add]
  exact Nat.le_add_right _ _

/-- Settles O46: cover, the place of each kind of byte, the order within a row, and one byte to an offset. -/
theorem rowsTileThePayload : Obligations.RowsTileThePayload := by
  intro w h
  simp only [pixelOffset_succ_zero]
  exact ⟨fun _ hlow ha => payload_cover hlow ha,
    fun y x c hy hx hc =>
      ⟨hdrLen_le_pixelOffset w y x, pixelOffset_lt w h y x c hy hx hc, (row_span w y x c hx hc).2⟩,
    fun y k hy hk => ⟨padOffset_lt w h y k hy hk, (pad_span w y k hk).2⟩,
    fun y _ _ k hx hc _ => pixelByte_lt_padOffset y k hx hc,
    fun _ _ _ _ _ _ hx hc hx' hc' => pixelByte_inj hx hc hx' hc',
    fun _ _ _ _ hk hk' => padOffset_inj hk hk',
    fun y _ _ y' _ hx hc hk => pixelByte_ne_padOffset y y' hx hc hk⟩

/-! ### The whole output or no byte of it (R70, R291) -/

/-- An output stays within the destination buffer, and the walk that made it stored no byte at or beyond its
length. -/
structure Output.WithinLength (s : State) (o : Output) : Prop where
  len_le : o.len ≤ s.params.dstBytes
  beyond : ∀ a, o.len ≤ a → lookup o.dst a = lookup s.dst a

theorem runEnc_withinLength {filt : Filt} {o : Output} (h : runEnc filt s = .ok o) : o.WithinLength s := by
  obtain ⟨d, hd, hgood, rfl⟩ := runEnc_ok filt s o h
  obtain ⟨-, -, -, -, hcap⟩ := encChecks_ok _ _ _ _ hd
  exact ⟨hcap, fun a ha => encPicture_beyond _ filt _ _ a _ hgood.width_even ha⟩

theorem runDec_withinLength {o : Output} (h : runDec s = .ok o) : o.WithinLength s := by
  obtain ⟨d, hd, -, rfl⟩ := runDec_ok s o h
  obtain ⟨-, -, -, -, hcap⟩ := decChecks_ok _ _ _ _ _ hd
  refine ⟨hcap, fun a ha => ?_⟩
  have hhdr : hdrLen ≤ a := hdrLen_le d.width d.height a ha
  dsimp only
  rw [decPicture_outside _ _ _ _ _ (.inr ha), serializeHeader_outside _ _ _ _ hhdr]

theorem pendingRun_withinLength {o : Output} (h : pendingRun s = .ok o) : o.WithinLength s := by
  unfold pendingRun at h
  cases hop : s.h.op with
  | enc =>
    simp only [hop] at h
    exact runEnc_withinLength h
  | dec =>
    simp only [hop] at h
    exact runDec_withinLength h

theorem errorCode_ne_zero (k : ErrorKind) : errorCode k ≠ 0 := by
  cases k <;> decide

/-- How an operation can end, by the `CODE` it reports (R254, R290): with a run that failed, or with one that
succeeded. -/
theorem complete_code_cases (s : State) :
    ((complete s).status.code ≠ 0 ∧ ∃ k, complete s = (s.reportError k).dropHidden) ∨
    ((complete s).status.code = 0 ∧ ∃ o, pendingRun s = .ok o ∧ complete s = (s.reportSuccess o).dropHidden) := by
  rw [complete_eq]
  obtain ⟨k, -, hk⟩ | ⟨o, ho, hfin⟩ := finish_cases s (pendingRun s)
  · rw [hk]
    exact .inl ⟨errorCode_ne_zero k, k, rfl⟩
  · rw [hfin]
    exact .inr ⟨rfl, o, ho, rfl⟩

/-- A byte at which a success stored nothing is as before. -/
theorem reportSuccess_byteAt_dst_of_lookup {o : Output} {a : Nat} (h : lookup o.dst a = lookup s.dst a) :
    (s.reportSuccess o).byteAt .dst a = s.byteAt .dst a := by
  simp only [State.byteAt, State.buffer_dst, State.reportSuccess_dst, State.reportSuccess_resets, h]

/-- A length within a legal capacity is read back from `DST_LEN` as it is (R7, R29). -/
theorem reportSuccess_dstLen_toNat {o : Output} (hp : s.params.legal) (ho : o.len ≤ s.params.dstBytes) :
    (s.reportSuccess o).dstLen.toNat = o.len := by
  obtain ⟨-, -, -, hdst⟩ := hp
  rw [State.reportSuccess_dstLen, BitVec.toNat_ofNat, Nat.mod_eq_of_lt (ho.trans_lt hdst)]

theorem complete_dst_of_error (h : (complete s).status.code ≠ 0) (a : Nat) :
    (complete s).byteAt .dst a = s.byteAt .dst a := by
  obtain ⟨-, k, hk⟩ | ⟨hcode, -⟩ := complete_code_cases s
  · rw [hk, State.dropHidden_byteAt, State.reportError_byteAt]
  · exact absurd hcode h

theorem complete_dst_beyond (hp : s.params.legal) (h : (complete s).status.code = 0) {a : Nat}
    (ha : (complete s).dstLen.toNat ≤ a) : (complete s).byteAt .dst a = s.byteAt .dst a := by
  obtain ⟨hcode, -⟩ | ⟨-, o, ho, hfin⟩ := complete_code_cases s
  · exact absurd h hcode
  · have hin := pendingRun_withinLength ho
    rw [hfin, State.dropHidden_dstLen, reportSuccess_dstLen_toNat hp hin.len_le] at ha
    rw [hfin, State.dropHidden_byteAt, reportSuccess_byteAt_dst_of_lookup (hin.beyond a ha)]

/-- What `DST` held before is no input of an operation (R17). -/
theorem complete_sameOutcome_of_dst (s : State) (m : Memory) :
    SameOutcome (complete s) (complete { s with dst := m }) :=
  outcomeDependsOnlyOnTheInputs s { s with dst := m } rfl rfl rfl rfl rfl rfl (fun _ _ _ => rfl)

/-- Settles O18: an error stores nothing, a success nothing beyond its length, and the output does not depend on
what `DST` held. -/
theorem outputIsWholeOrAbsent : Obligations.OutputIsWholeOrAbsent := by
  intro s hp
  refine ⟨complete_dst_of_error, fun hcode => ⟨fun a => complete_dst_beyond hp hcode, fun m a ha => ?_⟩⟩
  exact ((complete_sameOutcome_of_dst s m).output a ha).symm

/-! ### A host program of defined steps (R65, R288) -/

/-- The reads `DUMP DST` expands to lie below the length it read (R111). -/
theorem dumpLines_wf {p : Params} {n : Nat} (hn : n ≤ p.dstBytes) : ∀ l ∈ dumpLines n, l.wf p = true := by
  intro l hl
  obtain ⟨k, hk, rfl⟩ := List.mem_map.mp hl
  exact decide_eq_true ((List.mem_range.mp hk).trans_le hn)

/-- The program stays one of defined steps where neither it nor the capacities change. -/
theorem hostWf_of_eq (hs : s.hostWf) (hhost : t.host = s.host) (hparams : t.params = s.params) : t.hostWf := by
  rw [State.hostWf, hhost, hparams]
  exact hs

theorem State.KeepsInputs.hostWf (hk : s.KeepsInputs t) (hs : s.hostWf) : t.hostWf :=
  hostWf_of_eq hs hk.host hk.params

theorem whenIdle_hostWf {f : State → State} (hs : s.hostWf) (hf : (f s).hostWf) : (s.whenIdle f).hostWf := by
  cases hb : s.status.busy with
  | true => rwa [whenIdle_busy s f hb]
  | false => rwa [whenIdle_idle s f hb]

theorem readByte_hostWf (hs : s.hostWf) (sp : Space) (off : Nat) : (s.readByte sp off).hostWf := by
  unfold State.readByte
  split <;> exact hs

theorem storeByte_hostWf (hs : s.hostWf) (sp : Space) (off : Nat) (b : Byte) : (s.storeByte sp off b).hostWf := by
  cases sp <;> exact hs

theorem issueCommand_hostWf (hs : s.hostWf) {w : Word} (h : issueCommand w s = .next t) : t.hostWf := by
  obtain ⟨t', ht', hkeeps, -⟩ := issueCommand_keeps w s
  obtain rfl : t' = t := Host.Outcome.next.inj (ht'.symm.trans h)
  exact hkeeps.hostWf hs

/-- A line leaves defined steps behind it: `WAIT` puts back only itself, `DUMP` the reads below `DST_LEN`, and
every other line leaves the program as it is. -/
theorem runLine_hostWf (hlen : s.dstLen.toNat ≤ s.params.dstBytes) (hs : s.hostWf) {l : HostLine}
    (h : runLine l s = .next t) : t.hostWf := by
  obtain ⟨r, -, rfl⟩ | ⟨v, -, hissue⟩ | ⟨v, -, rfl⟩ | ⟨v, -, rfl⟩ | ⟨v, -, rfl⟩ | ⟨v, -, rfl⟩ | ⟨r, v, -, rfl⟩ |
    ⟨sp, off, -, -, rfl⟩ | ⟨sp, off, b, -, -, rfl⟩ | ⟨-, rfl⟩ | ⟨-, again, rfl⟩ | ⟨-, rfl⟩ :=
    runLine_cases l s t h
  · exact hs
  · exact issueCommand_hostWf hs hissue
  · exact hs
  · exact whenIdle_hostWf hs hs
  · exact whenIdle_hostWf hs hs
  · exact whenIdle_hostWf hs hs
  · exact hs
  · exact readByte_hostWf hs sp off
  · exact whenIdle_hostWf hs (storeByte_hostWf hs sp off b)
  · exact hs
  · cases again with
    | true => exact List.forall_mem_cons.mpr ⟨rfl, hs⟩
    | false => exact hs
  · exact List.forall_mem_append.mpr ⟨dumpLines_wf hlen, hs⟩

/-- A host's turn on a program of defined steps answers a next state, and leaves such a program. -/
theorem hostTurn_of_hostWf (hlen : s.dstLen.toNat ≤ s.params.dstBytes) (hs : s.hostWf) :
    ∃ t, hostTurn s = .next t ∧ t.hostWf := by
  unfold hostTurn
  cases hhost : s.host with
  | nil => exact ⟨s, rfl, hs⟩
  | cons l ls =>
    rw [State.hostWf, hhost] at hs
    obtain ⟨hl, hls⟩ := List.forall_mem_cons.mp hs
    obtain ⟨t, ht⟩ := runLine_of_wf l { s with host := ls } hl
    exact ⟨t, ht, runLine_hostWf (s := { s with host := ls }) hlen hls ht⟩

/-- Settles O27, by whose turn it is: the engine's step keeps the program, the host's leaves defined steps. -/
theorem definedHostStepsNeverStop : Obligations.DefinedHostStepsNeverStop := by
  intro s hinv hs
  have htaken : s.takeTurn.hostWf := hostWf_of_eq hs s.takeTurn_host s.takeTurn_params
  cases hturn : s.turn with
  | engine => exact ⟨_, step_of_turn_engine hturn, (complete_keepsInputs s.takeTurn).hostWf htaken⟩
  | host =>
    rw [step_of_turn_host hturn]
    exact hostTurn_of_hostWf hinv.takeTurn.len_le htaken

end Sys2Proof.Machine
end

section
/-! ## Encoding (30_encoding.md): the command words, what a write of each does, and the host's pseudo-instructions -/

namespace Sys2Proof

/-! ### The fields of a command word (R101) -/

/-- The four fields are all 32 bits of a word. -/
theorem append_fields (w : Word) : reservedHigh w ++ filtField w ++ reservedLow w ++ opField w = w := by
  unfold reservedHigh filtField reservedLow opField
  rw [BitVec.extractLsb'_append_extractLsb'_eq_extractLsb' (by rfl),
    BitVec.extractLsb'_append_extractLsb'_eq_extractLsb' (by rfl),
    BitVec.extractLsb'_append_extractLsb'_eq_extractLsb' (by rfl)]
  exact BitVec.extractLsb'_eq_self

theorem filtField_eq_ofBool (w : Word) : filtField w = BitVec.ofBool (w.getLsbD 8) := by
  ext k hk
  obtain rfl : k = 0 := by omega
  simp [filtField]

/-- The fields of a command's own word. -/
theorem wordFields (i : Instr) : Laws.WordFields.Statement i := by
  cases i with
  | clr => exact Laws.WordFields.clr
  | encAvg => exact Laws.WordFields.encAvg
  | encDir => exact Laws.WordFields.encDir
  | dec => exact Laws.WordFields.dec

/-- A word is the word of the command whose fields it has. -/
theorem eq_encode_iff {w : Word} {i : Instr} :
    w = encode i ↔ opField w = opCode i ∧ filtField w = filtCode i ∧ reservedLow w = 0 ∧ reservedHigh w = 0 := by
  constructor
  · rintro rfl
    exact wordFields i
  · rintro ⟨hop, hfilt, hlow, hhigh⟩
    rw [← append_fields w, hop, hfilt, hlow, hhigh]
    rfl

/-! ### The decoder (R101) -/

theorem decode_encode (i : Instr) : decode (encode i) = .ok i := by
  cases i <;> decide

/-- The decoder answers a command only where it has found the fields of that command. -/
theorem eq_encode_of_decode_ok {w : Word} {i : Instr} (h : decode w = .ok i) : w = encode i := by
  unfold decode at h
  split_ifs at h with hres hop hfilt hop hfilt hop hfilt
  all_goals
    cases h
    obtain ⟨hlow, hhigh⟩ : reservedLow w = 0 ∧ reservedHigh w = 0 := by simpa only [not_or, not_not] using hres
  · exact eq_encode_iff.mpr ⟨hop, hfilt, hlow, hhigh⟩
  · exact eq_encode_iff.mpr ⟨hop, hfilt, hlow, hhigh⟩
  · exact eq_encode_iff.mpr ⟨hop, (BitVec.eq_zero_or_eq_one _).resolve_left hfilt, hlow, hhigh⟩
  · exact eq_encode_iff.mpr ⟨hop, hfilt, hlow, hhigh⟩

theorem decode_eq_ok_iff (w : Word) (i : Instr) : decode w = .ok i ↔ w = encode i :=
  ⟨eq_encode_of_decode_ok, fun h => h ▸ decode_encode i⟩

/-- Settles O1. -/
theorem decodeReadsExactlyTheFourWords : Obligations.DecodeReadsExactlyTheFourWords :=
  ⟨by decide, by decide, by decide, by decide, decode_eq_ok_iff⟩

/-- Settles O2. -/
theorem decodeOfSampleWords : Obligations.DecodeOfSampleWords := by
  unfold Obligations.DecodeOfSampleWords
  decide

/-! ### The illegal words (R104) -/

theorem exists_eq_encode_iff (w : Word) :
    (∃ i, w = encode i) ↔ w = 0x00000000 ∨ w = 0x00000001 ∨ w = 0x00000101 ∨ w = 0x00000002 := by
  constructor
  · rintro ⟨i, rfl⟩
    cases i <;> decide
  · rintro (rfl | rfl | rfl | rfl)
    exacts [⟨.clr, by decide⟩, ⟨.encAvg, by decide⟩, ⟨.encDir, by decide⟩, ⟨.dec, by decide⟩]

/-- The legal words by their fields: `FILT` may be set only with `OP` at 1. -/
theorem exists_eq_encode_iff_fields (w : Word) :
    (∃ i, w = encode i) ↔ (opField w).toNat < 3 ∧ reservedLow w = 0 ∧ reservedHigh w = 0 ∧
      (w.getLsbD 8 = true → (opField w).toNat = 1) := by
  constructor
  · rintro ⟨i, rfl⟩
    cases i <;> decide
  · rintro ⟨hop, hlow, hhigh, hfilt⟩
    have hword : ∀ i, opField w = opCode i → BitVec.ofBool (w.getLsbD 8) = filtCode i → ∃ i, w = encode i :=
      fun i hi hf => ⟨i, eq_encode_iff.mpr ⟨hi, (filtField_eq_ofBool w).trans hf, hlow, hhigh⟩⟩
    cases hbit : w.getLsbD 8 with
    | true => exact hword .encDir (BitVec.eq_of_toNat_eq (hfilt hbit)) (by rw [hbit]; rfl)
    | false =>
      obtain h0 | h1 | h2 : opField w = 0 ∨ opField w = 1 ∨ opField w = 2 := by bv_omega
      · exact hword .clr h0 (by rw [hbit]; rfl)
      · exact hword .encAvg h1 (by rw [hbit]; rfl)
      · exact hword .dec h2 (by rw [hbit]; rfl)

theorem exists_decode_error {w : Word} (h : ¬ ∃ i, w = encode i) : ∃ e, decode w = .error e := by
  cases hd : decode w with
  | ok i => exact absurd ⟨i, eq_encode_of_decode_ok hd⟩ h
  | error e => exact ⟨e, rfl⟩

end Sys2Proof

namespace Sys2Proof.Machine

variable {s : State}

/-! ### The issue of a command word (R105, R252, R253) -/

theorem issueCommand_of_decode_error {w : Word} {e : IllegalWord} (h : decode w = .error e) :
    issueCommand w s = .next (s.whenIdle (fun t => t.reportError .illegalCommand)) := by
  simp only [issueCommand, h]

/-- Settles O3: the fields of the legal words say which words are illegal, and those the decoder rejects. -/
theorem illegalWordReportsIllegalCommand : Obligations.IllegalWordReportsIllegalCommand := by
  intro w
  have hnone : (w ≠ 0x00000000 ∧ w ≠ 0x00000001 ∧ w ≠ 0x00000101 ∧ w ≠ 0x00000002) ↔ ¬ ∃ i, w = encode i := by
    rw [exists_eq_encode_iff]
    simp only [not_or, ne_eq]
  rw [hnone]
  refine ⟨?_, fun hill s hidle => ?_⟩
  · rw [exists_eq_encode_iff_fields, not_and_or, not_and_or, not_and_or, Classical.not_imp, Nat.not_lt]
    rfl
  · obtain ⟨e, he⟩ := exists_decode_error hill
    rw [issueCommand_of_decode_error he, whenIdle_idle s _ hidle]
    rfl

theorem exec_busy (i : Instr) (h : s.status.busy = true) : exec i s = .next s := by
  cases i <;> exact congrArg Host.Outcome.next (whenIdle_busy s _ h)

theorem issueCommand_busy (w : Word) (h : s.status.busy = true) : issueCommand w s = .next s := by
  cases hd : decode w with
  | ok i => rw [issueCommand_of_decode_ok hd, exec_busy i h]
  | error e => rw [issueCommand_of_decode_error hd, whenIdle_busy s _ h]

/-- Settles O9. -/
theorem busyDiscardsEveryCommandWord : Obligations.BusyDiscardsEveryCommandWord :=
  fun _ w h => ⟨issueCommand_busy w h, fun i => exec_busy i h⟩

/-! ### `WAIT` and `DUMP DST` (R111) -/

/-- Bit 0 of a read of `STATUS` is `BUSY` (R255). -/
theorem statusWord_getLsbD_zero (st : Status) : (statusWord st).getLsbD 0 = st.busy := by
  rw [statusWord, BitVec.getLsbD_append]
  simp

theorem runLine_wait (s : State) :
    runLine .wait s = .next (State.pushResult
      { s with host := if s.status.busy then .wait :: s.host else s.host } (statusWord s.status)) := by
  have hbit : (s.readReg .status).getLsbD 0 = s.status.busy := statusWord_getLsbD_zero s.status
  cases hb : s.status.busy <;> simp only [runLine, hbit, hb] <;> rfl

/-- Settles O47. -/
theorem waitAndDumpExpandAsDefined : Obligations.WaitAndDumpExpandAsDefined := by
  intro s
  refine ⟨fun hbusy => ?_, fun hidle => ?_, rfl⟩
  · rw [runLine_wait, hbusy]
    rfl
  · rw [runLine_wait, hidle]
    rfl

/-! ### `LOAD SRC` (R111) -/

/-- While `BUSY = 0` a step runs the host's next line (R16). -/
theorem step_of_idle (hidle : s.status.busy = false) {l : HostLine} {ls : List HostLine} (hhost : s.host = l :: ls) :
    step s = runLine l { s with host := ls } := by
  have hturn : s.turn = .host := by simp [State.turn, hidle]
  rw [(stepRunsTheHostsNextLine s hturn).1 l ls hhost, hidle]
  rfl

theorem run_succ_of_step {s t : State} (h : step s = .next t) (n : Nat) :
    Host.Core.run Sys2Proof.core (n + 1) s = Host.Core.run Sys2Proof.core n t := by
  simp only [Host.Core.run, core, h]

theorem step_wrb_src_of_idle (hidle : s.status.busy = false) {off : Nat} {b : Byte} {ls : List HostLine}
    (hhost : s.host = .wrb .src off b :: ls) (hoff : off < s.params.srcBytes) :
    step s = .next { s with src := store s.src off b, host := ls } := by
  rw [step_of_idle hidle hhost]
  exact (if_pos hoff).trans (congrArg Host.Outcome.next (whenIdle_idle { s with host := ls } _ hidle))

theorem step_wr_srcLen_of_idle (hidle : s.status.busy = false) {v : Word} {ls : List HostLine}
    (hhost : s.host = .wr .srcLen v :: ls) : step s = .next { s with srcLen := v, host := ls } := by
  rw [step_of_idle hidle hhost]
  exact congrArg Host.Outcome.next (whenIdle_idle { s with host := ls } _ hidle)

/-- The contents of a buffer after bytes are stored at rising offsets. -/
def storeBytes (m : Memory) (off : Nat) : List Byte → Memory
  | [] => m
  | b :: bs => storeBytes (store m off b) (off + 1) bs

theorem lookup_storeBytes_outside (bs : List Byte) (m : Memory) {off a : Nat} (h : a < off ∨ off + bs.length ≤ a) :
    lookup (storeBytes m off bs) a = lookup m a := by
  induction bs generalizing m off with
  | nil => rfl
  | cons b bs ih =>
    rw [List.length_cons] at h
    rw [storeBytes, ih _ (by omega), lookup_store_other _ _ _ _ (by omega)]

theorem lookup_storeBytes_at (bs : List Byte) (m : Memory) (off : Nat) {k : Nat} (hk : k < bs.length) :
    lookup (storeBytes m off bs) (off + k) = some bs[k] := by
  induction bs generalizing m off k with
  | nil => cases hk
  | cons b bs ih =>
    rw [storeBytes]
    cases k with
    | zero => rw [lookup_storeBytes_outside _ _ (by omega), Nat.add_zero, lookup_store_same]; rfl
    | succ k =>
      rw [← Nat.add_assoc, Nat.add_right_comm]
      exact ih _ _ (Nat.lt_of_succ_lt_succ hk)

/-- A byte is the same where the buffers hold the same at its address and no reset lies between (R41). -/
theorem byteAt_of_lookup_eq {s t : State} {sp : Space} {a : Nat}
    (hlookup : lookup (t.buffer sp) a = lookup (s.buffer sp) a) (hresets : t.resets = s.resets) :
    t.byteAt sp a = s.byteAt sp a := by
  simp only [State.byteAt, hlookup, hresets]

/-- A run of the byte writes of `LOAD` stores the bytes, a step to each, and goes on with the lines behind them. -/
theorem run_loadAtLines (bs : List Byte) {s : State} {off : Nat} {rest : List HostLine} (n : Nat)
    (hidle : s.status.busy = false) (hfit : off + bs.length ≤ s.params.srcBytes)
    (hhost : s.host = loadAtLines off bs ++ rest) :
    Host.Core.run Sys2Proof.core (bs.length + n) s =
      Host.Core.run Sys2Proof.core n { s with src := storeBytes s.src off bs, host := rest } := by
  induction bs generalizing s off with
  | nil =>
    obtain rfl : s.host = rest := hhost
    rw [List.length_nil, Nat.zero_add]
    rfl
  | cons b bs ih =>
    rw [List.length_cons] at hfit
    have hstep := step_wrb_src_of_idle hidle hhost (by omega)
    have hfit' : off + 1 + bs.length ≤ s.params.srcBytes := by omega
    rw [List.length_cons, Nat.add_right_comm]
    exact (run_succ_of_step hstep _).trans (ih hidle hfit' rfl)

/-- `LOAD SRC` as a whole: the bytes, then their count. -/
theorem run_loadLines {bs : List Byte} {rest : List HostLine} (hidle : s.status.busy = false)
    (hfit : bs.length ≤ s.params.srcBytes) (hhost : s.host = loadLines bs ++ rest) :
    Host.Core.run Sys2Proof.core (bs.length + 1) s = .next
      { s with src := storeBytes s.src 0 bs, srcLen := BitVec.ofNat 32 bs.length, host := rest } := by
  rw [loadLines, List.append_assoc] at hhost
  have hcount := step_wr_srcLen_of_idle (ls := rest) (v := BitVec.ofNat 32 bs.length)
    (s := { s with src := storeBytes s.src 0 bs, host := .wr .srcLen (BitVec.ofNat 32 bs.length) :: rest }) hidle rfl
  exact (run_loadAtLines bs 1 hidle (by rwa [Nat.zero_add]) hhost).trans (run_succ_of_step hcount 0)

/-- Settles O48, from the state that the run of `LOAD` ends in and the contents it leaves in `SRC`. -/
theorem loadStoresTheBytesAndTheirCount : Obligations.LoadStoresTheBytesAndTheirCount := by
  intro s bs rest hidle hfit hhost
  refine ⟨_, run_loadLines hidle hfit hhost, fun k hk => ?_, fun k hk => ?_, rfl⟩
  · refine State.byteAt_of_lookup _ .src k _ ?_
    rw [State.buffer_src, ← lookup_storeBytes_at bs s.src 0 hk, Nat.zero_add]
  · exact byteAt_of_lookup_eq (lookup_storeBytes_outside bs s.src (.inr (by rwa [Nat.zero_add]))) rfl

end Sys2Proof.Machine
end

section
/-! ## The colourspace transform (40_colorspace_transform.md): `clamp8`, `FWD`, `INV`, and the round trip of a pixel -/

namespace Sys2Proof.Machine

/-! ### `clamp8`, the stored sample and the shift (R130, R131, R136) -/

theorem clamp8_of_neg {x : Int} (h : x < 0) : clamp8 x = 0 := if_pos h

theorem clamp8_of_gt {x : Int} (h : 255 < x) : clamp8 x = 255 := by
  rw [clamp8, if_neg (by omega), if_pos h]

theorem clamp8_of_mem {x : Int} (h0 : 0 ≤ x) (h255 : x ≤ 255) : clamp8 x = x := by
  rw [clamp8, if_neg (by omega), if_neg (by omega)]

theorem clamp8_eq_max_min (x : Int) : clamp8 x = max 0 (min 255 x) := by
  rcases lt_or_ge x 0 with hneg | h0
  · rw [clamp8_of_neg hneg]; omega
  rcases lt_or_ge 255 x with hgt | h255
  · rw [clamp8_of_gt hgt]; omega
  · rw [clamp8_of_mem h0 h255]; omega

theorem clamp8_le_of_le {n x : Int} (hn : 0 ≤ n) (h : x ≤ n) : clamp8 x ≤ n := by
  rw [clamp8_eq_max_min]
  omega

theorem le_clamp8_of_le {n x : Int} (hn : n ≤ 255) (h : n ≤ x) : n ≤ clamp8 x := by
  rw [clamp8_eq_max_min]
  omega

theorem lt_of_lt_clamp8 {n x : Int} (hn : 0 ≤ n) (h : n < clamp8 x) : n < x :=
  lt_of_not_ge fun hx => h.not_ge (clamp8_le_of_le hn hx)

theorem le_clamp8_of_clamp8_lt {x : Int} (h : clamp8 x < 255) : x ≤ clamp8 x :=
  (le_total x 255).elim (fun hx => le_clamp8_of_le hx le_rfl) fun hx => absurd (le_clamp8_of_le le_rfl hx) h.not_ge

theorem clamp8_nonneg (x : Int) : 0 ≤ clamp8 x := by
  rw [clamp8_eq_max_min]
  exact le_max_left _ _

theorem clamp8_le (x : Int) : clamp8 x ≤ 255 := by
  rw [clamp8_eq_max_min]
  exact max_le (by decide) (min_le_left _ _)

theorem clamp8_clamp8 (x : Int) : clamp8 (clamp8 x) = clamp8 x := clamp8_of_mem (clamp8_nonneg x) (clamp8_le x)

theorem value_nonneg (b : Byte) : 0 ≤ value b := Int.natCast_nonneg _

theorem value_le (b : Byte) : value b ≤ 255 := by
  have hlt := b.isLt
  unfold value
  omega

theorem value_injective : Function.Injective value := fun _ _ h => BitVec.eq_of_toNat_eq (Int.ofNat_inj.mp h)

theorem value_ofNat {n : Nat} (h : n ≤ 255) : value (BitVec.ofNat 8 n) = n := by
  rw [value, BitVec.toNat_ofNat, Nat.mod_eq_of_lt (by omega)]

/-- A stored sample has the clamped value. -/
theorem value_sample (x : Int) : value (sample x) = clamp8 x := by
  have h0 := clamp8_nonneg x
  have h255 := clamp8_le x
  rw [value, sample, BitVec.toNat_ofInt]
  omega

/-- Settles O38. -/
theorem clamp8ClipsToAByte : Obligations.Clamp8ClipsToAByte :=
  fun x => ⟨clamp8_of_neg, clamp8_of_gt, clamp8_of_mem, clamp8_clamp8 x, value_sample x⟩

theorem floorShift_eleven (a : Int) : floorShift a 11 = a / 2048 := rfl

/-! ### The forward transform (R132, R133) -/

/-- The three values of a packed pixel are bytes. -/
theorem Rgb.value_range (p : Rgb) :
    (0 ≤ value p.r ∧ value p.r ≤ 255) ∧ (0 ≤ value p.g ∧ value p.g ≤ 255) ∧ (0 ≤ value p.b ∧ value p.b ≤ 255) :=
  ⟨⟨value_nonneg _, value_le _⟩, ⟨value_nonneg _, value_le _⟩, value_nonneg _, value_le _⟩

/-- The three values of a planar pixel are bytes. -/
theorem Yuv.value_range (q : Yuv) :
    (0 ≤ value q.y ∧ value q.y ≤ 255) ∧ (0 ≤ value q.u ∧ value q.u ≤ 255) ∧ (0 ≤ value q.v ∧ value q.v ≤ 255) :=
  ⟨⟨value_nonneg _, value_le _⟩, ⟨value_nonneg _, value_le _⟩, value_nonneg _, value_le _⟩

theorem ySum_range (p : Rgb) : 0 ≤ ySum p ∧ ySum p ≤ 521985 := by
  have hp := p.value_range
  unfold ySum
  omega

theorem uSum_range (p : Rgb) : -261120 ≤ uSum p ∧ uSum p ≤ 261120 := by
  have hp := p.value_range
  unfold uSum
  omega

theorem vSum_range (p : Rgb) : -261120 ≤ vSum p ∧ vSum p ≤ 261120 := by
  have hp := p.value_range
  unfold vSum
  omega

theorem value_fwd_y (p : Rgb) : value (fwd p).y = ySum p / 2048 := by
  have hsum := ySum_range p
  rw [fwd, value_sample, floorShift_eleven, clamp8_of_mem (by omega) (by omega)]

theorem value_fwd_u (p : Rgb) : value (fwd p).u = uSum p / 2048 + 128 := by
  have hsum := uSum_range p
  rw [fwd, value_sample, floorShift_eleven, clamp8_of_mem (by omega) (by omega)]

theorem value_fwd_v (p : Rgb) : value (fwd p).v = vSum p / 2048 + 128 := by
  have hsum := vSum_range p
  rw [fwd, value_sample, floorShift_eleven, clamp8_of_mem (by omega) (by omega)]

theorem fwd_y_le (p : Rgb) : (fwd p).y.toNat ≤ 254 := by
  have hsum := ySum_range p
  have hy : ((fwd p).y.toNat : Int) = ySum p / 2048 := value_fwd_y p
  omega

/-- Settles O39. -/
theorem forwardTransformNeverClamps : Obligations.ForwardTransformNeverClamps :=
  fun p => ⟨value_fwd_y p, value_fwd_u p, value_fwd_v p, fwd_y_le p⟩

/-- The gray pixel of a value (R133.2). -/
abbrev Rgb.gray (v : Byte) : Rgb := { r := v, g := v, b := v }

/-- The luma of a gray pixel: the coefficients sum to 2047, so it is one less, except of black. -/
theorem fwd_gray_y (v : Byte) : (fwd (.gray v)).y.toNat = v.toNat - 1 := by
  have hv := v.isLt
  have hy : ((fwd (.gray v)).y.toNat : Int) = _ / 2048 := value_fwd_y _
  simp only [ySum, value] at hy
  omega

/-- A gray pixel has neutral U: the coefficients sum to 0. -/
theorem fwd_gray_u (v : Byte) : (fwd (.gray v)).u = 128 := by
  have hsum : uSum (Rgb.gray v) = 0 := by simp only [uSum]; ring
  refine value_injective ?_
  rw [value_fwd_u, hsum]
  rfl

/-- A gray pixel has neutral V: the coefficients sum to 0. -/
theorem fwd_gray_v (v : Byte) : (fwd (.gray v)).v = 128 := by
  have hsum : vSum (.gray v) = 0 := by simp only [vSum]; ring
  refine value_injective ?_
  rw [value_fwd_v, hsum]
  rfl

/-- The biased floor of half the difference of two bytes takes every byte's value: one of the two bytes is 0. -/
theorem exists_half_difference (c : Byte) : ∃ a b : Byte, (value a - value b) / 2 + 128 = value c := by
  have hc : value c = c.toNat := rfl
  have hle := value_le c
  refine ⟨BitVec.ofNat 8 (2 * c.toNat - 256), BitVec.ofNat 8 (255 - 2 * c.toNat), ?_⟩
  rw [value_ofNat (by omega), value_ofNat (by omega)]
  omega

/-- With R and G alike, U is half of what B exceeds them by. -/
theorem exists_fwd_u (u : Byte) : ∃ p, (fwd p).u = u := by
  obtain ⟨a, b, hab⟩ := exists_half_difference u
  refine ⟨{ r := b, g := b, b := a }, value_injective ?_⟩
  simp only [value_fwd_u, uSum, ← hab]
  omega

/-- With G and B alike, V is half of what R exceeds them by. -/
theorem exists_fwd_v (v : Byte) : ∃ p, (fwd p).v = v := by
  obtain ⟨a, b, hab⟩ := exists_half_difference v
  refine ⟨{ r := a, g := b, b := b }, value_injective ?_⟩
  simp only [value_fwd_v, vSum, ← hab]
  omega

/-- Settles O40. -/
theorem forwardTransformOfGrayAndItsRange : Obligations.ForwardTransformOfGrayAndItsRange :=
  ⟨fun v => ⟨fwd_gray_y v, fwd_gray_u v, fwd_gray_v v⟩, exists_fwd_u, exists_fwd_v⟩

/-! ### The inverse transform (R134, R135) -/

theorem value_inv_r (q : Yuv) : value (inv q).r = clamp8 (rSum q / 2048) := value_sample _

theorem value_inv_g (q : Yuv) : value (inv q).g = clamp8 (gSum q / 2048) := value_sample _

theorem value_inv_b (q : Yuv) : value (inv q).b = clamp8 (bSum q / 2048) := value_sample _

/-- The red sum with the chroma bias folded into its constant. -/
theorem rSum_folded (q : Yuv) : rSum q = 2048 * value q.y + 2871 * value q.v - 367488 := by
  unfold rSum
  ring

/-- The green sum with the chroma biases folded into its constant. -/
theorem gSum_folded (q : Yuv) : gSum q = 2048 * value q.y - 704 * value q.u - 1463 * value q.v + 277376 := by
  unfold gSum
  ring

/-- The blue sum with the chroma bias folded into its constant. -/
theorem bSum_folded (q : Yuv) : bSum q = 2048 * value q.y + 3629 * value q.u - 464512 := by
  unfold bSum
  ring

theorem rSum_range (q : Yuv) : -367488 ≤ rSum q ∧ rSum q ≤ 886857 := by
  have hq := q.value_range
  rw [rSum_folded]
  omega

theorem gSum_range (q : Yuv) : -275209 ≤ gSum q ∧ gSum q ≤ 799616 := by
  have hq := q.value_range
  rw [gSum_folded]
  omega

theorem bSum_range (q : Yuv) : -464512 ≤ bSum q ∧ bSum q ≤ 983123 := by
  have hq := q.value_range
  rw [bSum_folded]
  omega

/-- Settles O41. -/
theorem inverseTransformClampsItsSums : Obligations.InverseTransformClampsItsSums := by
  intro q
  obtain ⟨hrlow, hrhigh⟩ := rSum_range q
  obtain ⟨hglow, hghigh⟩ := gSum_range q
  obtain ⟨hblow, hbhigh⟩ := bSum_range q
  have hr := value_inv_r q
  have hg := value_inv_g q
  have hb := value_inv_b q
  rw [clamp8_eq_max_min, rSum_folded] at hr
  rw [clamp8_eq_max_min, gSum_folded] at hg
  rw [clamp8_eq_max_min, bSum_folded] at hb
  exact ⟨hr, hg, hb, hrlow, hrhigh, hglow, hghigh, hblow, hbhigh⟩

/-- A shifted luma alone is stored unchanged. -/
theorem sample_floorShift_luma (y : Byte) : sample (floorShift (2048 * value y) 11) = y := by
  refine value_injective ?_
  rw [value_sample, floorShift_eleven, Int.mul_ediv_cancel_left _ (by decide),
    clamp8_of_mem (value_nonneg y) (value_le y)]

/-- Neutral chroma: every product with a chroma difference is 0. -/
theorem inv_of_neutral {q : Yuv} (hu : q.u = 128) (hv : q.v = 128) : inv q = { r := q.y, g := q.y, b := q.y } := by
  have hneutral : value 128 = 128 := rfl
  simp only [inv, rSum, gSum, bSum, hu, hv, hneutral, sub_self, mul_zero, add_zero, sub_zero, sample_floorShift_luma]

/-- Settles O42. -/
theorem neutralChromaPassesLuma : Obligations.NeutralChromaPassesLuma :=
  ⟨fun _ => inv_of_neutral rfl rfl, by decide, by decide, by decide⟩

/-! ### The round trip of one pixel (R137) -/

/-- Before its clamp the red of a round trip is at most 3 below the pixel's and never above it. -/
theorem roundTrip_red_unclamped (p : Rgb) :
    value p.r - 3 ≤ rSum (fwd p) / 2048 ∧ rSum (fwd p) / 2048 ≤ value p.r := by
  have hp := p.value_range
  rw [rSum, value_fwd_y, value_fwd_v, ySum, vSum]
  omega

theorem roundTrip_green_unclamped (p : Rgb) :
    value p.g - 2 ≤ gSum (fwd p) / 2048 ∧ gSum (fwd p) / 2048 ≤ value p.g + 1 := by
  have hp := p.value_range
  rw [gSum, value_fwd_y, value_fwd_u, value_fwd_v, ySum, uSum, vSum]
  omega

theorem roundTrip_blue_unclamped (p : Rgb) :
    value p.b - 3 ≤ bSum (fwd p) / 2048 ∧ bSum (fwd p) / 2048 ≤ value p.b := by
  have hp := p.value_range
  rw [bSum, value_fwd_y, value_fwd_u, ySum, uSum]
  omega

theorem roundTrip_red (p : Rgb) :
    value p.r - 3 ≤ value (inv (fwd p)).r ∧ value (inv (fwd p)).r ≤ value p.r := by
  have hp := p.value_range
  obtain ⟨hlow, hhigh⟩ := roundTrip_red_unclamped p
  rw [value_inv_r]
  exact ⟨le_clamp8_of_le (by omega) hlow, clamp8_le_of_le (value_nonneg _) hhigh⟩

theorem roundTrip_green (p : Rgb) :
    value p.g - 2 ≤ value (inv (fwd p)).g ∧ value (inv (fwd p)).g ≤ value p.g + 1 := by
  have hp := p.value_range
  obtain ⟨hlow, hhigh⟩ := roundTrip_green_unclamped p
  rw [value_inv_g]
  exact ⟨le_clamp8_of_le (by omega) hlow, clamp8_le_of_le (by omega) hhigh⟩

theorem roundTrip_blue (p : Rgb) :
    value p.b - 3 ≤ value (inv (fwd p)).b ∧ value (inv (fwd p)).b ≤ value p.b := by
  have hp := p.value_range
  obtain ⟨hlow, hhigh⟩ := roundTrip_blue_unclamped p
  rw [value_inv_b]
  exact ⟨le_clamp8_of_le (by omega) hlow, clamp8_le_of_le (value_nonneg _) hhigh⟩

/-- Green comes back one too large only where the forward shift of luma dropped next to nothing. -/
theorem ySum_lt_of_green_gain {p : Rgb} (h : value p.g < value (inv (fwd p)).g) :
    ySum p + 1202 < 2048 * (value (fwd p).y + 1) := by
  have hp := p.value_range
  have hgain : value p.g < gSum (fwd p) / 2048 := by
    rw [value_inv_g] at h
    exact lt_of_lt_clamp8 (value_nonneg _) h
  rw [gSum, value_fwd_y, value_fwd_u, value_fwd_v, ySum, uSum, vSum] at hgain
  rw [value_fwd_y, ySum]
  omega

/-- Without its clamps `INV` keeps the luma sum up to its three floors: the chroma products nearly cancel. -/
theorem unclamped_luma_ge (q : Yuv) :
    2047 * value q.y - 2181 ≤ 612 * (rSum q / 2048) + 1202 * (gSum q / 2048) + 233 * (bSum q / 2048) := by
  have hq := q.value_range
  rw [rSum, gSum, bSum]
  omega

/-- Only green can come back too large, by 1, and the floor of the first luma leaves room for that. -/
theorem roundTrip_luma_le (p : Rgb) : value (fwd (inv (fwd p))).y ≤ value (fwd p).y := by
  have hr := roundTrip_red p
  have hg := roundTrip_green p
  have hb := roundTrip_blue p
  rw [value_fwd_y (inv (fwd p)), ySum]
  rcases lt_or_ge (value p.g) (value (inv (fwd p)).g) with hgain | hkept
  · have hsum := ySum_lt_of_green_gain hgain
    rw [ySum] at hsum
    omega
  · rw [value_fwd_y, ySum]
    omega

/-- Where green comes back too small no clamp lowers a component; elsewhere only red and blue are lost, and the loss
of 3 in each costs the luma at most 2. -/
theorem roundTrip_luma_ge (p : Rgb) : value (fwd p).y - 2 ≤ value (fwd (inv (fwd p))).y := by
  rw [value_fwd_y (inv (fwd p)), ySum]
  rcases lt_or_ge (value (inv (fwd p)).g) (value p.g) with hloss | hkept
  · have hr : rSum (fwd p) / 2048 ≤ value (inv (fwd p)).r := by
      rw [value_inv_r]
      exact le_clamp8_of_le ((roundTrip_red_unclamped p).2.trans (value_le _)) le_rfl
    have hg : gSum (fwd p) / 2048 ≤ value (inv (fwd p)).g := by
      rw [value_inv_g] at hloss ⊢
      exact le_clamp8_of_clamp8_lt (hloss.trans_le (value_le _))
    have hb : bSum (fwd p) / 2048 ≤ value (inv (fwd p)).b := by
      rw [value_inv_b]
      exact le_clamp8_of_le ((roundTrip_blue_unclamped p).2.trans (value_le _)) le_rfl
    have hsum := unclamped_luma_ge (fwd p)
    have hy := value_le (fwd p).y
    omega
  · have hr := roundTrip_red p
    have hb := roundTrip_blue p
    rw [value_fwd_y, ySum]
    omega

/-- A gray pixel has neutral chroma, so it comes back as its luma. -/
theorem roundTrip_gray (v : Byte) :
    inv (fwd (.gray v)) = { r := (fwd (.gray v)).y, g := (fwd (.gray v)).y, b := (fwd (.gray v)).y } :=
  inv_of_neutral (fwd_gray_u v) (fwd_gray_v v)

/-- Settles O43: the bounds, a pixel at each of them, and the gray pixels. -/
theorem pixelRoundTripErrorIsBounded : Obligations.PixelRoundTripErrorIsBounded := by
  refine ⟨fun p => ?_, ⟨⟨118, 112, 235⟩, by decide⟩, ⟨⟨0, 0, 0⟩, by decide⟩, ⟨⟨237, 202, 146⟩, by decide⟩,
    ⟨⟨10, 30, 153⟩, by decide⟩, ⟨⟨0, 2, 5⟩, by decide⟩, ⟨⟨0, 0, 0⟩, by decide⟩, ⟨⟨253, 119, 176⟩, by decide⟩,
    ⟨⟨0, 0, 0⟩, by decide⟩, fun v => ?_⟩
  · obtain ⟨hrlow, hrhigh⟩ := roundTrip_red p
    obtain ⟨hglow, hghigh⟩ := roundTrip_green p
    obtain ⟨hblow, hbhigh⟩ := roundTrip_blue p
    exact ⟨hrlow, Int.ofNat_le.mp hrhigh, hglow, Int.ofNat_le.mp hghigh, hblow, Int.ofNat_le.mp hbhigh,
      roundTrip_luma_ge p, Int.ofNat_le.mp (roundTrip_luma_le p)⟩
  · rw [roundTrip_gray v]
    exact ⟨fwd_gray_y v, fwd_gray_y v, fwd_gray_y v⟩

end Sys2Proof.Machine
end

section
/-! ## The container parser (41_container_parser.md): the size formulas, and what of a container `ENC` reads -/

namespace Sys2Proof.Machine

/-! ### The size formulas (R150) -/

/-- The stride is the row's pixel bytes rounded up to a multiple of 4. -/
theorem stride_eq_rounded (w : Nat) : stride w = (w * 3 + 3) / 4 * 4 := by
  unfold stride rowPadding
  omega

theorem rowPadding_of_mod_four_eq_zero {w : Nat} (h : w % 4 = 0) : rowPadding w = 0 := by
  unfold rowPadding
  omega

theorem rowPadding_of_mod_four_eq_two {w : Nat} (h : w % 4 = 2) : rowPadding w = 2 := by
  unfold rowPadding
  omega

theorem rowPadding_of_odd {w : Nat} (h : w % 2 = 1) : rowPadding w = 1 ∨ rowPadding w = 3 := by
  unfold rowPadding
  omega

/-- The width is rounded up within `3 * 2^31`, a multiple of 4, so the payload stays below `3 * 2^62`. -/
theorem containerLen_lt {w h : Nat} (hw : w < 2 ^ 31) (hh : h < 2 ^ 31) : containerLen w h < 2 ^ 65 := by
  have hstride : stride w ≤ 3 * 2 ^ 31 := by
    rw [stride_eq_rounded]
    omega
  have hpayload : payloadLen w h ≤ 3 * 2 ^ 31 * 2 ^ 31 := Nat.mul_le_mul hstride hh.le
  unfold containerLen hdrLen
  omega

/-- Settles O44. -/
theorem sizeFormulasAgree : Obligations.SizeFormulasAgree :=
  fun w _ => ⟨rfl, stride_eq_rounded w, rowPadding_of_mod_four_eq_zero, rowPadding_of_mod_four_eq_two,
    rowPadding_of_odd, rfl, rfl, rfl, containerLen_lt⟩

/-! ### What of a container `ENC` reads (R155, R177) -/

/-- The header offsets `PARSE` reads: the signature, the width and height, the bits per pixel and the compression
(R152, R153). -/
abbrev CheckedOffset (a : Nat) : Prop := a < 2 ∨ (18 ≤ a ∧ a < 26) ∨ (28 ≤ a ∧ a < 34)

/-- `PARSE` reads no other header field (R155). -/
theorem parse_congr_of_checked {rd rd' : Nat → Byte} (hrd : ∀ a, CheckedOffset a → rd a = rd' a) :
    parse rd = parse rd' := by
  have hfield (a n : Nat) (h : ∀ k < n, CheckedOffset (a + k)) : readLE rd a n = readLE rd' a n :=
    readLE_congr rd rd' a n (fun k hk => hrd _ (h k hk))
  have hsignature : headerSignature rd = headerSignature rd' :=
    congrArg₂ Prod.mk (hrd 0 (by omega)) (hrd 1 (by omega))
  have hwidth : headerWidth rd = headerWidth rd' := congrArg sext32 (hfield 18 4 (by omega))
  have hheight : headerHeight rd = headerHeight rd' := congrArg sext32 (hfield 22 4 (by omega))
  have hbits : headerBitsPerPixel rd = headerBitsPerPixel rd' := hfield 28 2 (by omega)
  have hcompression : headerCompression rd = headerCompression rd' := hfield 30 4 (by omega)
  simp only [parse, badFormat, hsignature, hwidth, hheight, hbits, hcompression]

/-- The checks of `ENC` read `SRC` only through `PARSE` (R171). -/
theorem encChecks_congr_of_parse (p : Params) (n : Nat) {rd rd' : Nat → Byte} (h : parse rd = parse rd') :
    encChecks p n rd = encChecks p n rd' := by
  simp only [encChecks, h]

/-- A fetched pixel is its three bytes (R173). -/
theorem packedPixel_congr_of_bytes {rd rd' : Nat → Byte} {w y x : Nat}
    (hrd : ∀ c < 3, rd (pixelOffset w y x + c) = rd' (pixelOffset w y x + c)) :
    packedPixel rd w y x = packedPixel rd' w y x := by
  have hb : rd (pixelOffset w y x) = rd' (pixelOffset w y x) := hrd 0 (by omega)
  simp only [packedPixel, hb, hrd 1 (by omega), hrd 2 (by omega)]

/-- Two states agree on all of their inputs that `ENC` reads. -/
structure SameEncInputs (s t : State) : Prop where
  params : s.params = t.params
  srcLen : s.srcLen = t.srcLen
  checked : ∀ a, CheckedOffset a → s.srcReader a = t.srcReader a
  pixels : ∀ y < (headerHeight s.srcReader).toNat, ∀ x < (headerWidth s.srcReader).toNat,
    packedPixel s.srcReader (headerWidth s.srcReader).toNat y x =
      packedPixel t.srcReader (headerWidth s.srcReader).toNat y x

variable {s t : State}

/-- A run of `ENC` depends on the checked header fields and the pixels alone: the checks answer alike, and where
they accept, the picture is the one the header announces. -/
theorem runEnc_sameRun_of_checked (hst : SameEncInputs s t) (filt : Filt) :
    SameRun (runEnc filt s) (runEnc filt t) := by
  have hchecks : encChecks t.params t.srcLenOperand t.srcReader = encChecks s.params s.srcLenOperand s.srcReader := by
    rw [← hst.params, State.srcLenOperand, ← hst.srcLen]
    exact (encChecks_congr_of_parse _ _ (parse_congr_of_checked hst.checked)).symm
  unfold runEnc
  rw [hchecks]
  cases hd : encChecks s.params s.srcLenOperand s.srcReader with
  | error k => exact .error k
  | ok d =>
    obtain ⟨-, hparse, -⟩ := encChecks_ok _ _ _ _ hd
    obtain ⟨-, hdims, rfl⟩ := parse_ok _ _ hparse
    exact .ok _ _ (encPicture_sameOutput filt _ _ (dimsOf_good _ _ hdims).width_even hst.pixels)

theorem pendingRun_of_enc (hop : s.h.op = .enc) : pendingRun s = runEnc s.h.filt s := by
  simp only [pendingRun, hop]

/-- Settles O21: the runs end alike, and are reported alike. -/
theorem encIgnoresUncheckedFieldsAndPadding : Obligations.EncIgnoresUncheckedFieldsAndPadding := by
  rintro s t w h hparams hsop htop hfilt hlen rfl rfl hheader hpixels
  have hst : SameEncInputs s t :=
    { params := hparams
      srcLen := hlen
      checked := fun a ha => hheader a (by omega) ha
      pixels := fun y hy x hx => packedPixel_congr_of_bytes (hpixels y hy x hx) }
  rw [complete_eq, complete_eq, pendingRun_of_enc hsop, pendingRun_of_enc htop, ← hfilt]
  exact finish_sameOutcome s t (runEnc_sameRun_of_checked hst s.h.filt)

end Sys2Proof.Machine
end

section
/-! ## Encode (42_encode_pack_to_planar.md): the issue of a command, the checks E1 to E4, and the planar image -/

namespace Sys2Proof.Machine

variable {s : State}

/-! ### The issue of a command while `BUSY = 0` (R170, R200, R250) -/

theorem exec_encAvg_idle (h : s.status.busy = false) : exec .encAvg s = .next (s.startOperation .enc .avg) :=
  congrArg Host.Outcome.next (whenIdle_idle s _ h)

theorem exec_encDir_idle (h : s.status.busy = false) : exec .encDir s = .next (s.startOperation .enc .dir) :=
  congrArg Host.Outcome.next (whenIdle_idle s _ h)

theorem exec_dec_idle (h : s.status.busy = false) : exec .dec s = .next (s.startOperation .dec .avg) :=
  congrArg Host.Outcome.next (whenIdle_idle s _ h)

/-- Settles O8: the state each issue gives is the started one. -/
theorem commandStartsItsOperation : Obligations.CommandStartsItsOperation :=
  fun _ h => ⟨exec_encAvg_idle h, exec_encDir_idle h, exec_dec_idle h⟩

/-! ### What `PARSE` answers (R151 to R157) -/

theorem badFormat_iff (rd : Nat → Byte) :
    badFormat rd ↔ rd 0 ≠ 0x42 ∨ rd 1 ≠ 0x4D ∨ readLE rd 28 2 ≠ 24 ∨ readLE rd 30 4 ≠ 0 := by
  have hsignature : headerSignature rd = signature ↔ rd 0 = 0x42 ∧ rd 1 = 0x4D := Prod.mk_inj
  rw [badFormat, ne_eq (headerSignature rd), hsignature, not_and_or, or_assoc]
  rfl

theorem parse_of_badFormat {rd : Nat → Byte} (h : badFormat rd) : parse rd = .error .unsupportedFormat :=
  if_pos h

theorem parse_of_badDimensions {rd : Nat → Byte} (hformat : ¬ badFormat rd)
    (hdims : badDimensions (headerWidth rd) (headerHeight rd)) : parse rd = .error .invalidDimensions := by
  rw [parse, if_neg hformat, if_pos hdims]

theorem parse_of_supported {rd : Nat → Byte} (hformat : ¬ badFormat rd)
    (hdims : ¬ badDimensions (headerWidth rd) (headerHeight rd)) :
    parse rd = .ok (dimsOf (headerWidth rd) (headerHeight rd)) := by
  rw [parse, if_neg hformat, if_neg hdims]

/-! ### What the checks E1 to E4 answer (R171) -/

section Checks

variable {p : Params} {n : Nat} {rd : Nat → Byte} {d : Dims}

theorem encChecks_of_short (h : n < hdrLen) : encChecks p n rd = .error .sizeMismatch :=
  if_pos h

theorem encChecks_of_parse_error {k : ErrorKind} (hlen : hdrLen ≤ n) (hparse : parse rd = .error k) :
    encChecks p n rd = .error k := by
  rw [encChecks, if_neg (Nat.not_lt.mpr hlen), hparse]

/-- What is left to check of a container that parses: that it is whole and that it and the image fit. -/
theorem encChecks_of_parse_ok (hlen : hdrLen ≤ n) (hparse : parse rd = .ok d) :
    encChecks p n rd =
      if n < containerLen d.width d.height then .error .sizeMismatch
      else if p.srcBytes < containerLen d.width d.height ∨ p.dstBytes < planarLen d.width d.height then
        .error .capacity
      else .ok d := by
  rw [encChecks, if_neg (Nat.not_lt.mpr hlen), hparse]

theorem encChecks_of_truncated (hlen : hdrLen ≤ n) (hparse : parse rd = .ok d)
    (h : n < containerLen d.width d.height) : encChecks p n rd = .error .sizeMismatch := by
  rw [encChecks_of_parse_ok hlen hparse, if_pos h]

theorem encChecks_of_not_fits (hparse : parse rd = .ok d) (hwhole : containerLen d.width d.height ≤ n)
    (h : p.srcBytes < containerLen d.width d.height ∨ p.dstBytes < planarLen d.width d.height) :
    encChecks p n rd = .error .capacity := by
  rw [encChecks_of_parse_ok (hdrLen_le _ _ n hwhole) hparse, if_neg (Nat.not_lt.mpr hwhole), if_pos h]

theorem encChecks_of_fits (hparse : parse rd = .ok d) (hwhole : containerLen d.width d.height ≤ n)
    (hsrc : containerLen d.width d.height ≤ p.srcBytes) (hdst : planarLen d.width d.height ≤ p.dstBytes) :
    encChecks p n rd = .ok d := by
  rw [encChecks_of_parse_ok (hdrLen_le _ _ n hwhole) hparse, if_neg (Nat.not_lt.mpr hwhole),
    if_neg (not_or.mpr ⟨Nat.not_lt.mpr hsrc, Nat.not_lt.mpr hdst⟩)]

end Checks

/-- The checks let an acceptable container through, with the dimensions of its header. -/
theorem EncAccepts.encChecks_eq {w h : Nat} (ha : EncAccepts s w h) :
    encChecks s.params s.srcLenOperand s.srcReader = .ok { width := w, height := h, pad := rowPadding w } := by
  have hformat : ¬ badFormat s.srcReader := by
    rw [badFormat_iff]
    simp only [State.srcReader, ha.sig0, ha.sig1, ha.depth, ha.uncompressed, ne_eq, not_true_eq_false, or_self,
      not_false_eq_true]
  have hwidth : headerWidth s.srcReader = w := ha.width
  have hheight : headerHeight s.srcReader = h := ha.height
  have hdims : ¬ badDimensions (headerWidth s.srcReader) (headerHeight s.srcReader) := by
    have hw := ha.width_pos
    have hh := ha.height_pos
    have he := ha.width_even
    rw [hwidth, hheight]
    omega
  have hparse := parse_of_supported hformat hdims
  rw [hwidth, hheight] at hparse
  exact encChecks_of_fits hparse ha.whole ha.src_fits ha.dst_fits

/-! ### The run of `ENC` and its end (R178, R290) -/

/-- What `ENC` produces once its checks let a picture of dimensions `d` through. -/
def encOutput (filt : Filt) (s : State) (d : Dims) : Output :=
  { dst := (encPicture s.srcReader filt d.width d.height { dst := s.dst, h := s.h }).dst
    len := planarLen d.width d.height
    width := d.width
    height := d.height
    pad := d.pad }

theorem runEnc_of_checks_error (filt : Filt) {k : ErrorKind}
    (h : encChecks s.params s.srcLenOperand s.srcReader = .error k) : runEnc filt s = .error k := by
  simp only [runEnc, h]

theorem runEnc_of_checks_ok (filt : Filt) {d : Dims}
    (h : encChecks s.params s.srcLenOperand s.srcReader = .ok d) : runEnc filt s = .ok (encOutput filt s d) := by
  simp only [runEnc, h, encOutput]

theorem complete_of_enc (hop : s.h.op = .enc) : complete s = s.finish (runEnc s.h.filt s) := by
  rw [complete_eq, pendingRun_of_enc hop]

/-- A failed run leaves its report and nothing else (R290). -/
theorem finish_error_endsWithError (s : State) (k : ErrorKind) :
    EndsWithError s (s.finish (.error k)) (errorCode k) where
  status := rfl
  results_clear := ⟨rfl, rfl, rfl, rfl⟩
  dst := fun a => (State.dropHidden_byteAt _ .dst a).trans (State.reportError_byteAt s k .dst a)
  kept := finish_keepsInputs s (.error k)

theorem complete_endsWithError_of_encChecks (hop : s.h.op = .enc) {k : ErrorKind}
    (h : encChecks s.params s.srcLenOperand s.srcReader = .error k) :
    EndsWithError s (complete s) (errorCode k) := by
  rw [complete_of_enc hop, runEnc_of_checks_error _ h]
  exact finish_error_endsWithError s k

theorem complete_code_of_encChecks (hop : s.h.op = .enc) {d : Dims}
    (h : encChecks s.params s.srcLenOperand s.srcReader = .ok d) : (complete s).status.code = 0 := by
  rw [complete_of_enc hop, runEnc_of_checks_ok _ h]
  rfl

/-- Settles O16: the checks in their order, each with the error its failure names. -/
theorem encReportsTheFirstFailedCheck : Obligations.EncReportsTheFirstFailedCheck := by
  intro s hop
  have hends {k : ErrorKind} (h : encChecks s.params s.srcLenOperand s.srcReader = .error k) :=
    complete_endsWithError_of_encChecks hop h
  refine ⟨fun hshort => hends (encChecks_of_short hshort), fun hlen => ⟨fun hbad => ?_, ?_⟩⟩
  · exact hends (encChecks_of_parse_error hlen (parse_of_badFormat ((badFormat_iff _).mpr hbad)))
  · intro hsig0 hsig1 hdepth hcompression
    have hformat : ¬ badFormat s.srcReader := by
      rw [badFormat_iff]
      exact not_or.mpr ⟨not_not.mpr hsig0, not_or.mpr ⟨not_not.mpr hsig1, not_or.mpr
        ⟨not_not.mpr hdepth, not_not.mpr hcompression⟩⟩⟩
    refine ⟨fun hbad => ?_, fun hw hh heven => ?_⟩
    · have hdims : badDimensions (headerWidth s.srcReader) (headerHeight s.srcReader) :=
        hbad.imp_right (Or.imp_right fun hodd heven => absurd (hodd.symm.trans heven) (by decide))
      exact hends (encChecks_of_parse_error hlen (parse_of_badDimensions hformat hdims))
    · have hdims : ¬ badDimensions (headerWidth s.srcReader) (headerHeight s.srcReader) :=
        not_or.mpr ⟨hw.not_ge, not_or.mpr ⟨hh.not_ge, not_not.mpr heven⟩⟩
      have hparse := parse_of_supported hformat hdims
      exact ⟨fun htruncated => hends (encChecks_of_truncated hlen hparse htruncated), fun hwhole =>
        ⟨fun hbig => hends (encChecks_of_not_fits hparse hwhole hbig), fun hsrc hdst =>
          complete_code_of_encChecks hop (encChecks_of_fits hparse hwhole hsrc hdst)⟩⟩

/-! ### The planar image a successful `ENC` leaves (R173 to R176, R178, R180) -/

/-- The pixel the walk transforms is `p(r, x)` of R180. -/
theorem encYuv_flip (s : State) (w h r x : Nat) :
    encYuv s.srcReader w (h - 1 - r) x = convertedPixel s w h r x := rfl

theorem average_toNat (a b : Byte) : (average a b).toNat = (a.toNat + b.toNat) / 2 := by
  have ha := a.isLt
  have hb := b.isLt
  rw [average, BitVec.toNat_ofNat, Nat.mod_eq_of_lt (by omega)]

theorem encChroma_toNat (filt : Filt) (c : Nat) (left before : Byte) :
    (encChroma filt c left before).toNat = pairChroma filt c left before := by
  unfold encChroma pairChroma
  split
  · rfl
  · exact average_toNat left before

/-- A number that a 32-bit register holds as a signed value is below `2 ^ 31`. -/
theorem lt_of_toInt_eq {v : Word} {n : Nat} (h : v.toInt = n) : n < 2 ^ 31 := by
  have hlt := BitVec.two_mul_toInt_lt (x := v)
  omega

/-- A byte the run stored is read back after its success. -/
theorem finish_ok_byteAt_dst {o : Output} {a : Nat} {b : Byte} (h : lookup o.dst a = some b) :
    (s.finish (.ok o)).byteAt .dst a = b :=
  State.byteAt_of_lookup _ .dst a b h

theorem EncAccepts.runEnc_eq {w h : Nat} (ha : EncAccepts s w h) (filt : Filt) :
    runEnc filt s = .ok (encOutput filt s { width := w, height := h, pad := rowPadding w }) :=
  runEnc_of_checks_ok filt ha.encChecks_eq

/-- The engine's step on an acceptable container, with either filter. -/
theorem EncAccepts.finish_result {w h : Nat} (ha : EncAccepts s w h) (hp : s.params.legal) (filt : Filt) :
    EncResult filt s (s.finish (runEnc filt s)) w h := by
  have he := ha.width_even
  have hw := lt_of_toInt_eq ha.width
  have hh := lt_of_toInt_eq ha.height
  rw [ha.runEnc_eq filt]
  constructor
  case status => rfl
  case dstLen => exact reportSuccess_dstLen_toNat hp ha.dst_fits
  case outW => exact Nat.mod_eq_of_lt (hw.trans (by decide))
  case outH => exact Nat.mod_eq_of_lt (hh.trans (by decide))
  case outPad => exact Nat.mod_eq_of_lt (Nat.mod_lt _ (by decide))
  case luma =>
    intro r hr x hx
    rw [← encYuv_flip]
    exact finish_ok_byteAt_dst (encPicture_luma _ filt w h r x _ he hr hx)
  case chromaU =>
    intro r hr c hc
    rw [← encYuv_flip, ← encYuv_flip, ← encChroma_toNat]
    exact congrArg BitVec.toNat (finish_ok_byteAt_dst (encPicture_chromaU _ filt w h r c _ he hr hc))
  case chromaV =>
    intro r hr c hc
    rw [← encYuv_flip, ← encYuv_flip, ← encChroma_toNat]
    exact congrArg BitVec.toNat (finish_ok_byteAt_dst (encPicture_chromaV _ filt w h r c _ he hr hc))
  case beyond =>
    exact fun a hle => (State.dropHidden_byteAt _ .dst a).trans
      (reportSuccess_byteAt_dst_of_lookup (encPicture_beyond _ filt w h a _ he hle))
  case kept => exact finish_keepsInputs s _

/-! ### From the issue to the completion (R250, R254) -/

/-- The start of an operation changes nothing the checks read. -/
theorem EncAccepts.startOperation {w h : Nat} (ha : EncAccepts s w h) (op : Op) (filt : Filt) :
    EncAccepts (s.startOperation op filt) w h :=
  { ha with }

/-- The start of an operation changes nothing the result is compared with. -/
theorem EncResult.of_startOperation {filt filt' : Filt} {op : Op} {u : State} {w h : Nat}
    (hr : EncResult filt (s.startOperation op filt') u w h) : EncResult filt s u w h :=
  { hr with kept := { hr.kept with } }

/-- An `ENC` started on an acceptable container leaves its planar image when the engine completes it. -/
theorem EncAccepts.complete_result {w h : Nat} (ha : EncAccepts s w h) (hp : s.params.legal) (filt : Filt) :
    EncResult filt s (complete (s.startOperation .enc filt)) w h := by
  rw [complete_of_enc rfl]
  exact ((ha.startOperation .enc filt).finish_result hp filt).of_startOperation

/-- Settles O11. -/
theorem encAvgConvertsThePicture : Obligations.EncAvgConvertsThePicture :=
  fun _ _ _ hp hidle ha => ⟨_, exec_encAvg_idle hidle, rfl, ha.complete_result hp .avg⟩

/-- Settles O12. -/
theorem encDirConvertsThePicture : Obligations.EncDirConvertsThePicture :=
  fun _ _ _ hp hidle ha => ⟨_, exec_encDir_idle hidle, rfl, ha.complete_result hp .dir⟩

/-! ### The two filters on a picture of width 2 (R175) -/

/-- At a row's first column there is no previous pixel, and at an odd one no chroma sample is stored. -/
theorem encPixel_avg_eq_dir (rd : Nat → Byte) (w h y : Nat) {x : Nat} (hx : x < 2) (k : Walk) :
    encPixel rd .avg w h y x k = encPixel rd .dir w h y x k := by
  obtain rfl | rfl : x = 0 ∨ x = 1 := by omega
  · rfl
  · rfl

theorem encRow_avg_eq_dir (rd : Nat → Byte) (h y : Nat) (k : Walk) :
    encRow rd .avg 2 h y k = encRow rd .dir 2 h y k :=
  List.foldl_ext _ _ k (fun k' _ hx => encPixel_avg_eq_dir rd 2 h y (List.mem_range.mp hx) k')

theorem encPicture_avg_eq_dir (rd : Nat → Byte) (h : Nat) (k : Walk) :
    encPicture rd .avg 2 h k = encPicture rd .dir 2 h k :=
  List.foldl_ext _ _ k (fun k' r _ => encRow_avg_eq_dir rd h (h - 1 - r) k')

/-- Settles O23: the walks agree pixel by pixel, so the runs and their ends do. -/
theorem filtersAgreeAtWidthTwo : Obligations.FiltersAgreeAtWidthTwo := by
  intro s h ha
  have hruns : runEnc .avg s = runEnc .dir s := by
    rw [ha.runEnc_eq, ha.runEnc_eq, encOutput, encPicture_avg_eq_dir]
    rfl
  exact congrArg s.finish hruns

end Sys2Proof.Machine
end

section
/-! ## Decode (43_decode_planar_to_pack.md): the checks D1 to D3, and the container `DEC` leaves -/

namespace Sys2Proof.Machine

variable {s : State}

/-! ### What the checks D1 to D3 answer (R201) -/

section Checks

variable {p : Params} {n : Nat} {width height : Int}

theorem decChecks_of_badDimensions (h : badDimensions width height) :
    decChecks p n width height = .error .invalidDimensions :=
  if_pos h

/-- What is left to check of a picture of good dimensions: its exact length, and that it and the container fit. -/
theorem decChecks_of_goodDimensions (h : ¬ badDimensions width height) :
    decChecks p n width height =
      if n ≠ planarLen width.toNat height.toNat then .error .sizeMismatch
      else if p.srcBytes < planarLen width.toNat height.toNat ∨ p.dstBytes < containerLen width.toNat height.toNat
        then .error .capacity
      else .ok (dimsOf width height) :=
  if_neg h

theorem decChecks_of_wrong_len (hdims : ¬ badDimensions width height)
    (h : n ≠ planarLen width.toNat height.toNat) : decChecks p n width height = .error .sizeMismatch := by
  rw [decChecks_of_goodDimensions hdims, if_pos h]

theorem decChecks_of_not_fits (hdims : ¬ badDimensions width height) (hlen : n = planarLen width.toNat height.toNat)
    (h : p.srcBytes < planarLen width.toNat height.toNat ∨ p.dstBytes < containerLen width.toNat height.toNat) :
    decChecks p n width height = .error .capacity := by
  rw [decChecks_of_goodDimensions hdims, if_neg (not_not.mpr hlen), if_pos h]

theorem decChecks_of_fits (hdims : ¬ badDimensions width height) (hlen : n = planarLen width.toNat height.toNat)
    (hsrc : planarLen width.toNat height.toNat ≤ p.srcBytes)
    (hdst : containerLen width.toNat height.toNat ≤ p.dstBytes) :
    decChecks p n width height = .ok (dimsOf width height) := by
  rw [decChecks_of_goodDimensions hdims, if_neg (not_not.mpr hlen),
    if_neg (not_or.mpr ⟨Nat.not_lt.mpr hsrc, Nat.not_lt.mpr hdst⟩)]

end Checks

/-- The checks let an acceptable planar image through, with the dimensions of its operand registers. -/
theorem DecAccepts.decChecks_eq {w h : Nat} (ha : DecAccepts s w h) :
    decChecks s.params s.srcLenOperand s.widthOperand s.heightOperand =
      .ok { width := w, height := h, pad := rowPadding w } := by
  have hdims : ¬ badDimensions (w : Int) (h : Int) := by
    have hw := ha.width_pos
    have hh := ha.height_pos
    have he := ha.width_even
    omega
  rw [State.widthOperand, ha.width, State.heightOperand, ha.height]
  exact decChecks_of_fits hdims ha.exact_len ha.src_fits ha.dst_fits

/-! ### The run of `DEC` and its end (R207, R290) -/

/-- What `DEC` produces once its checks let a picture of dimensions `d` through. -/
def decOutput (s : State) (d : Dims) : Output :=
  { dst := (decPicture s.srcReader d.width d.height
              { dst := serializeHeader s.dst d.width d.height, h := s.h }).dst
    len := containerLen d.width d.height
    width := d.width
    height := d.height
    pad := d.pad }

theorem runDec_of_checks_error {k : ErrorKind}
    (h : decChecks s.params s.srcLenOperand s.widthOperand s.heightOperand = .error k) : runDec s = .error k := by
  simp only [runDec, h]

theorem runDec_of_checks_ok {d : Dims}
    (h : decChecks s.params s.srcLenOperand s.widthOperand s.heightOperand = .ok d) :
    runDec s = .ok (decOutput s d) := by
  simp only [runDec, h, decOutput]

theorem complete_of_dec (hop : s.h.op = .dec) : complete s = s.finish (runDec s) := by
  simp only [complete_eq, pendingRun, hop]

theorem complete_endsWithError_of_decChecks (hop : s.h.op = .dec) {k : ErrorKind}
    (h : decChecks s.params s.srcLenOperand s.widthOperand s.heightOperand = .error k) :
    EndsWithError s (complete s) (errorCode k) := by
  rw [complete_of_dec hop, runDec_of_checks_error h]
  exact finish_error_endsWithError s k

theorem complete_code_of_decChecks (hop : s.h.op = .dec) {d : Dims}
    (h : decChecks s.params s.srcLenOperand s.widthOperand s.heightOperand = .ok d) :
    (complete s).status.code = 0 := by
  rw [complete_of_dec hop, runDec_of_checks_ok h]
  rfl

/-- Settles O17: the checks in their order, each with the error its failure names. -/
theorem decReportsTheFirstFailedCheck : Obligations.DecReportsTheFirstFailedCheck := by
  intro s hop
  have hends {k : ErrorKind} (h : decChecks s.params s.srcLenOperand s.widthOperand s.heightOperand = .error k) :=
    complete_endsWithError_of_decChecks hop h
  refine ⟨fun hbad => ?_, fun hw hh heven => ?_⟩
  · have hdims : badDimensions s.widthOperand s.heightOperand :=
      hbad.imp_right (Or.imp_right fun hodd heven => absurd (hodd.symm.trans heven) (by decide))
    exact hends (decChecks_of_badDimensions hdims)
  · have hdims : ¬ badDimensions s.widthOperand s.heightOperand :=
      not_or.mpr ⟨hw.not_ge, not_or.mpr ⟨hh.not_ge, not_not.mpr heven⟩⟩
    exact ⟨fun hwrong => hends (decChecks_of_wrong_len hdims hwrong), fun hlen =>
      ⟨fun hbig => hends (decChecks_of_not_fits hdims hlen hbig), fun hsrc hdst =>
        complete_code_of_decChecks hop (decChecks_of_fits hdims hlen hsrc hdst)⟩⟩

/-! ### The container a successful `DEC` leaves (R204 to R208) -/

/-- In a picture of even width the flattened chroma index is that of the pixel's pair in its row. -/
theorem chromaIndex_of_even {w : Nat} (he : w % 2 = 0) (i j : Nat) :
    chromaIndex w i j = i * (w / 2) + j / 2 := by
  obtain ⟨m, rfl⟩ := Nat.dvd_of_mod_eq_zero he
  rw [chromaIndex, Nat.mul_left_comm, Nat.mul_add_div (by decide), Nat.mul_div_cancel_left m (by decide)]

/-- The pixel the walk stores is `INV` of the pixel's own Y and its pair's U and V. -/
theorem inv_planarPixel {w : Nat} (he : w % 2 = 0) (s : State) (h i j : Nat) :
    inv (planarPixel s.srcReader w h i j) = decodedPixel s w h i j := by
  rw [planarPixel, chromaIndex_of_even he]
  rfl

theorem DecAccepts.runDec_eq {w h : Nat} (ha : DecAccepts s w h) :
    runDec s = .ok (decOutput s { width := w, height := h, pad := rowPadding w }) :=
  runDec_of_checks_ok ha.decChecks_eq

/-- Each byte of each pixel: row `i` of the picture lands in disk row `h - 1 - i` (R205). -/
theorem DecAccepts.finish_pixelByte {w h i j c : Nat} (ha : DecAccepts s w h) (hi : i < h) (hj : j < w)
    (hc : c < 3) :
    (s.finish (runDec s)).byteAt .dst (pixelOffset w (h - 1 - i) j + c) =
      packedByte (decodedPixel s w h i j) c := by
  rw [ha.runDec_eq, ← inv_planarPixel ha.width_even]
  exact finish_ok_byteAt_dst (decPicture_pixel _ w h i j c _ hi hj hc)

/-- Beyond the container neither the header nor the walk stores a byte (R70, R207). -/
theorem decOutput_lookup_beyond (s : State) {d : Dims} {a : Nat} (h : containerLen d.width d.height ≤ a) :
    lookup (decOutput s d).dst a = lookup s.dst a := by
  rw [decOutput, decPicture_outside _ _ _ _ _ (.inr h), serializeHeader_outside _ _ _ _ (hdrLen_le _ _ a h)]

/-- The engine's step on an acceptable planar image. -/
theorem DecAccepts.finish_result {w h : Nat} (ha : DecAccepts s w h) (hp : s.params.legal) :
    DecResult s (s.finish (runDec s)) w h := by
  have hpixel {i j c : Nat} (hi : i < h) (hj : j < w) (hc : c < 3) := ha.finish_pixelByte hi hj hc
  have hw := lt_of_toInt_eq ha.width
  have hh := lt_of_toInt_eq ha.height
  rw [ha.runDec_eq] at hpixel ⊢
  constructor
  case status => rfl
  case dstLen => exact reportSuccess_dstLen_toNat hp ha.dst_fits
  case outW => exact Nat.mod_eq_of_lt (hw.trans (by decide))
  case outH => exact Nat.mod_eq_of_lt (hh.trans (by decide))
  case outPad => exact Nat.mod_eq_of_lt (Nat.mod_lt _ (by decide))
  case blue => exact fun i hi j hj => hpixel (c := 0) hi hj (by decide)
  case green => exact fun i hi j hj => hpixel (c := 1) hi hj (by decide)
  case red => exact fun i hi j hj => hpixel (c := 2) hi hj (by decide)
  case padding => exact fun y hy k hk => finish_ok_byteAt_dst (decPicture_padding _ w h y k _ hy hk)
  case beyond =>
    exact fun a hle => (State.dropHidden_byteAt _ .dst a).trans
      (reportSuccess_byteAt_dst_of_lookup (decOutput_lookup_beyond s hle))
  case kept => exact finish_keepsInputs s _

/-! ### From the issue to the completion (R200, R250, R254) -/

/-- The start of an operation changes nothing the checks read. -/
theorem DecAccepts.startOperation {w h : Nat} (ha : DecAccepts s w h) (op : Op) (filt : Filt) :
    DecAccepts (s.startOperation op filt) w h :=
  { ha with }

/-- The start of an operation changes nothing the result is compared with. -/
theorem DecResult.of_startOperation {op : Op} {filt : Filt} {u : State} {w h : Nat}
    (hr : DecResult (s.startOperation op filt) u w h) : DecResult s u w h :=
  { hr with kept := { hr.kept with } }

/-- A `DEC` started on an acceptable planar image leaves its container when the engine completes it. -/
theorem DecAccepts.complete_result {w h : Nat} (ha : DecAccepts s w h) (hp : s.params.legal) (filt : Filt) :
    DecResult s (complete (s.startOperation .dec filt)) w h := by
  rw [complete_of_dec rfl]
  exact ((ha.startOperation .dec filt).finish_result hp).of_startOperation

/-- Settles O13. -/
theorem decConvertsThePicture : Obligations.DecConvertsThePicture :=
  fun _ _ _ hp hidle ha => ⟨_, exec_dec_idle hidle, rfl, ha.complete_result hp .avg⟩

end Sys2Proof.Machine
end

section
/-! ## Serialize (44_container_serializer.md): the header `DEC` writes, and that the block's own parser reads it back -/

namespace Sys2Proof.Machine

variable {s : State}

/-! ### The header's fields as `DEC` leaves them in `DST` (R230, R231) -/

/-- Every field of R231 stands inside the header. -/
theorem headerFields_end_le {w h : Nat} {f : Field} (hf : f ∈ headerFields w h) : f.1 + f.2.1 ≤ hdrLen := by
  have hall : ∀ f ∈ headerFields w h, f.1 + f.2.1 ≤ hdrLen := by
    simp [headerFields, hdrLen]
  exact hall f hf

/-- Every header value fits in its field: the width and the height are those of signed registers, and a container
that fits in `DST` has a length, and so a payload, below `2 ^ 32` (R201, R231). -/
theorem headerFields_value_lt {w h : Nat} (hw : w < 2 ^ 31) (hh : h < 2 ^ 31) (hlen : containerLen w h < 2 ^ 32)
    {f : Field} (hf : f ∈ headerFields w h) : f.2.2 < 256 ^ f.2.1 := by
  have hpayload : payloadLen w h ≤ containerLen w h := Nat.le_add_left _ _
  have hall : ∀ f ∈ headerFields w h, f.2.2 < 256 ^ f.2.1 := by
    simp only [headerFields, hdrLen, List.forall_mem_cons, List.not_mem_nil, false_imp_iff, implies_true,
      and_true]
    omega
  exact hall f hf

/-- The walk stores nothing over the header. -/
theorem decOutput_lookup_header (s : State) {d : Dims} {a : Nat} (h : a < hdrLen) :
    lookup (decOutput s d).dst a = lookup (serializeHeader s.dst d.width d.height) a := by
  rw [decOutput, decPicture_outside _ _ _ _ _ (.inl h)]

/-- Each byte of a header field is left as the serializer wrote it. -/
theorem decOutput_fieldByte (s : State) {d : Dims} {f : Field} {k : Nat} (hf : f ∈ headerFields d.width d.height)
    (hk : k < f.2.1) : lookup (decOutput s d).dst (f.1 + k) = some (BitVec.ofNat 8 (f.2.2 / 256 ^ k)) := by
  have hend := headerFields_end_le hf
  rw [decOutput_lookup_header s (by omega), serializeHeader_field s.dst d.width d.height f k hf hk]

/-- After a successful `DEC` each header field reads as the value written to it. -/
theorem DecAccepts.finish_readLE_field {w h : Nat} (ha : DecAccepts s w h) (hp : s.params.legal) {f : Field}
    (hf : f ∈ headerFields w h) : readLE ((s.finish (runDec s)).byteAt .dst) f.1 f.2.1 = f.2.2 := by
  obtain ⟨-, -, -, hcap⟩ := hp
  have hfits := headerFields_value_lt (lt_of_toInt_eq ha.width) (lt_of_toInt_eq ha.height)
    (ha.dst_fits.trans_lt hcap) hf
  rw [ha.runDec_eq, readLE_of_bytes _ _ _ _ fun k hk => finish_ok_byteAt_dst (decOutput_fieldByte s hf hk)]
  exact Nat.mod_eq_of_lt hfits

/-- The sixteen writes of R231, read back one by one, are the header. -/
theorem decHeader_of_fields {rd : Nat → Byte} {w h : Nat}
    (hfields : ∀ f ∈ headerFields w h, readLE rd f.1 f.2.1 = f.2.2) : DecHeader rd w h := by
  have hbyte {a : Nat} {b : Byte} (hread : readLE rd a 1 = b.toNat) : rd a = b := BitVec.eq_of_toNat_eq hread
  simp only [headerFields, List.forall_mem_cons] at hfields
  obtain ⟨hsig0, hsig1, hfileSize, hreserved, hdataOffset, hheaderSize, hwidth, hheight, hplanes, hbits,
    hcompression, himageSize, hxRes, hyRes, hcolors, himportant, -⟩ := hfields
  exact ⟨hbyte hsig0, hbyte hsig1, hfileSize, hreserved, hdataOffset, hheaderSize, hwidth, hheight, hplanes, hbits,
    hcompression, himageSize, hxRes, hyRes, hcolors, himportant⟩

theorem DecAccepts.complete_header {w h : Nat} (ha : DecAccepts s w h) (hp : s.params.legal)
    (hop : s.h.op = .dec) : DecHeader ((complete s).byteAt .dst) w h := by
  rw [complete_of_dec hop]
  exact decHeader_of_fields fun _ hf => ha.finish_readLE_field hp hf

/-- Settles O14. -/
theorem decWritesTheHeader : Obligations.DecWritesTheHeader :=
  fun _ _ _ hp hop ha => ha.complete_header hp hop

/-! ### The written container under `PARSE` and the checks of `ENC` (R232) -/

/-- A number below `2 ^ 31` is its own sign extension, so a dimension is not read back as negative. -/
theorem sext32_of_lt {n : Nat} (h : n < 2 ^ 31) : sext32 n = n := by
  rw [sext32, BitVec.toInt_ofNat']
  exact Int.bmod_eq_of_le (by omega) (by omega)

/-- `PARSE` returns the dimensions the header was written with. -/
theorem DecHeader.parse_eq {rd : Nat → Byte} {w h : Nat} (hd : DecHeader rd w h) (hw : 0 < w) (hw' : w < 2 ^ 31)
    (he : w % 2 = 0) (hh : 0 < h) (hh' : h < 2 ^ 31) :
    parse rd = .ok { width := w, height := h, pad := rowPadding w } := by
  have hformat : ¬ badFormat rd := by
    rw [badFormat_iff, hd.sig0, hd.sig1, hd.bitsPerPixel, hd.compression]
    decide
  have hwidth : headerWidth rd = w := by rw [headerWidth, hd.width, sext32_of_lt hw']
  have hheight : headerHeight rd = h := by rw [headerHeight, hd.height, sext32_of_lt hh']
  have hdims : ¬ badDimensions (headerWidth rd) (headerHeight rd) := by
    rw [hwidth, hheight]
    omega
  rw [parse_of_supported hformat hdims, hwidth, hheight]
  rfl

theorem DecAccepts.complete_parse {w h : Nat} (ha : DecAccepts s w h) (hp : s.params.legal)
    (hop : s.h.op = .dec) :
    parse ((complete s).byteAt .dst) = .ok { width := w, height := h, pad := rowPadding w } :=
  (ha.complete_header hp hop).parse_eq ha.width_pos (lt_of_toInt_eq ha.width) ha.width_even ha.height_pos
    (lt_of_toInt_eq ha.height)

theorem DecAccepts.complete_dstLen {w h : Nat} (ha : DecAccepts s w h) (hp : s.params.legal)
    (hop : s.h.op = .dec) : (complete s).dstLen.toNat = containerLen w h := by
  rw [complete_of_dec hop]
  exact (ha.finish_result hp).dstLen

/-- A whole container that parses passes E1 to E3, which leaves E4 (R171). -/
theorem runEnc_error_of_parse_ok {filt : Filt} {d : Dims} {k : ErrorKind} (hparse : parse s.srcReader = .ok d)
    (hwhole : containerLen d.width d.height ≤ s.srcLenOperand) (herror : runEnc filt s = .error k) :
    k = .capacity := by
  by_cases hcap : s.params.srcBytes < containerLen d.width d.height ∨ s.params.dstBytes < planarLen d.width d.height
  · rw [runEnc_of_checks_error filt (encChecks_of_not_fits hparse hwhole hcap)] at herror
    exact (Except.error.inj herror).symm
  · obtain ⟨hsrc, hdst⟩ := not_or.mp hcap
    rw [runEnc_of_checks_ok filt (encChecks_of_fits hparse hwhole (Nat.not_lt.mp hsrc) (Nat.not_lt.mp hdst))] at herror
    cases herror

/-- Settles O15: the header read back, and in `SRC` a container that parses and is whole. -/
theorem decOutputIsAcceptedByEnc : Obligations.DecOutputIsAcceptedByEnc := by
  intro s w h hp hop ha
  have hd := ha.complete_header hp hop
  have hparse := ha.complete_parse hp hop
  have hlen := ha.complete_dstLen hp hop
  refine ⟨hparse, hd.fileSize.trans hlen.symm, ?_, hd.imageSize, hd.headerSize, hd.planes, hd.colorsUsed,
    hd.importantColors, hd.dataOffset, ?_⟩
  · rw [hd.fileSize, hd.dataOffset, hd.imageSize, Nat.add_sub_cancel_left]
  · intro t htlen hmoved k herror
    have hwhole : containerLen w h ≤ t.srcLenOperand := by rw [State.srcLenOperand, htlen, hlen]
    have hhdr : 54 ≤ t.srcLen.toNat := hdrLen_le w h _ hwhole
    have htparse : parse t.srcReader = parse ((complete s).byteAt .dst) :=
      parse_congr_of_checked fun a hchecked => hmoved a (by omega)
    exact runEnc_error_of_parse_ok (htparse.trans hparse) hwhole herror

end Sys2Proof.Machine
end

section
/-! ## Control and host access (45_control_and_host_access.md): `CLR`, the host's register and byte accesses, and the
end of an accepted operation -/

namespace Sys2Proof.Machine

variable {s t : State}

/-! ### `CLR` (R251, R252) -/

theorem exec_clr_idle (h : s.status.busy = false) : exec .clr s = .next s.acknowledge :=
  congrArg Host.Outcome.next (whenIdle_idle s _ h)

/-- Settles O7. -/
theorem clrClearsOnlyTheReport : Obligations.ClrClearsOnlyTheReport :=
  fun _ => ⟨exec_clr_idle, exec_busy .clr⟩

/-! ### Register reads (R255) -/

/-- Bit 1 of a read of `STATUS` is `DONE`. -/
theorem statusWord_getLsbD_one (st : Status) : (statusWord st).getLsbD 1 = st.done := by
  rw [statusWord, BitVec.getLsbD_append, BitVec.getLsbD_append]
  simp

/-- Bit 2 of a read of `STATUS` is `ERR`. -/
theorem statusWord_getLsbD_two (st : Status) : (statusWord st).getLsbD 2 = st.err := by
  rw [statusWord, BitVec.getLsbD_append, BitVec.getLsbD_append, BitVec.getLsbD_append]
  simp

/-- Above the three flags a read of `STATUS` holds 5 zero bits, `CODE` and 20 zero bits. -/
theorem statusWord_extractLsb'_above_flags (st : Status) {start : Nat} (len : Nat) (h : 3 ≤ start) :
    (statusWord st).extractLsb' start len = (0#20 ++ st.code ++ 0#5).extractLsb' (start - 1 - 1 - 1) len := by
  rw [statusWord, BitVec.extractLsb'_append_eq_of_le (by omega), BitVec.extractLsb'_append_eq_of_le (by omega),
    BitVec.extractLsb'_append_eq_of_le (by omega)]

theorem statusWord_reserved_low (st : Status) : (statusWord st).extractLsb' 3 5 = 0 :=
  (statusWord_extractLsb'_above_flags st 5 (by decide)).trans BitVec.extractLsb'_append_eq_right

theorem statusWord_code (st : Status) : (statusWord st).extractLsb' 8 4 = st.code := by
  rw [statusWord_extractLsb'_above_flags st 4 (by decide), BitVec.extractLsb'_append_eq_of_le (by decide)]
  exact BitVec.extractLsb'_append_eq_right

theorem statusWord_reserved_high (st : Status) : (statusWord st).extractLsb' 12 20 = 0 := by
  rw [statusWord_extractLsb'_above_flags st 20 (by decide), BitVec.extractLsb'_append_eq_of_le (by decide)]
  exact BitVec.extractLsb'_append_eq_left

theorem readReg_ctrl_getLsbD_zero (s : State) : (s.readReg .ctrl).getLsbD 0 = s.ie := by
  rw [State.readReg, BitVec.getLsbD_append]
  simp

/-- Settles O31: the fields of `STATUS`, `CTRL` and `OUT_PAD`; the other registers are read whole. -/
theorem registerReadsHaveNoSideEffect : Obligations.RegisterReadsHaveNoSideEffect :=
  fun s _ => ⟨rfl, rfl, statusWord_getLsbD_zero s.status, statusWord_getLsbD_one s.status,
    statusWord_getLsbD_two s.status, statusWord_reserved_low s.status, statusWord_code s.status,
    statusWord_reserved_high s.status, readReg_ctrl_getLsbD_zero s, BitVec.extractLsb'_append_eq_left,
    rfl, rfl, rfl, rfl, rfl, rfl, BitVec.extractLsb'_append_eq_right, BitVec.extractLsb'_append_eq_left⟩

/-! ### Register writes (R256) -/

theorem writeReg_of_readOnly {r : Reg} (v : Word) (hr : r ∈ [Reg.status, .dstLen, .outW, .outH, .outPad]) :
    writeReg r v s = .next s := by
  simp only [List.mem_cons, List.not_mem_nil, or_false] at hr
  obtain rfl | rfl | rfl | rfl | rfl := hr <;> rfl

/-- While `BUSY = 1` only `CTRL` can be written. -/
theorem writeReg_busy {r : Reg} (v : Word) (hbusy : s.status.busy = true) (hr : r ≠ .ctrl) :
    writeReg r v s = .next s := by
  cases r with
  | cmd => exact issueCommand_busy v hbusy
  | ctrl => exact absurd rfl hr
  | width | height | srcLen => exact congrArg Host.Outcome.next (whenIdle_busy s _ hbusy)
  | status | dstLen | outW | outH | outPad => rfl

/-- Settles O32. -/
theorem registerWritesFollowTheTable : Obligations.RegisterWritesFollowTheTable := by
  intro s v
  refine ⟨rfl, rfl, fun hidle => ⟨?_, ?_, ?_⟩, fun hbusy r hr => writeReg_busy v hbusy hr,
    fun r hr => writeReg_of_readOnly v hr⟩
  all_goals exact congrArg Host.Outcome.next (whenIdle_idle s _ hidle)

/-! ### Byte reads and byte writes (R257, R258) -/

theorem readByte_idle (sp : Space) (off : Nat) (h : s.status.busy = false) :
    s.readByte sp off = { s with results := (s.byteAt sp off).setWidth 32 :: s.results } := by
  simp [State.readByte, State.pushResult, h]

theorem readByte_busy (sp : Space) (off : Nat) (h : s.status.busy = true) :
    s.readByte sp off =
      { s with freeUses := s.freeUses + 1, results := (Config.busyReadByte s.freeUses).setWidth 32 :: s.results } := by
  simp [State.readByte, State.pushResult, h]

theorem runLine_rdb_of_lt {sp : Space} {off : Nat} (h : off < s.params.capacity sp) :
    runLine (.rdb sp off) s = .next (s.readByte sp off) :=
  if_pos h

theorem runLine_wrb_of_lt {sp : Space} {off : Nat} (b : Byte) (h : off < s.params.capacity sp) :
    runLine (.wrb sp off b) s = .next (s.whenIdle fun t => t.storeByte sp off b) :=
  if_pos h

/-- Settles O33. -/
theorem bufferReadReturnsTheByte : Obligations.BufferReadReturnsTheByte := by
  intro s sp off hoff
  rw [runLine_rdb_of_lt hoff]
  exact ⟨fun hidle => congrArg Host.Outcome.next (readByte_idle sp off hidle),
    fun hbusy => ⟨_, _, rfl, readByte_busy sp off hbusy⟩⟩

/-- Storing a byte changes nothing but the contents of the buffers. -/
theorem storeByte_frame (s : State) (sp : Space) (off : Nat) (b : Byte) :
    { s.storeByte sp off b with src := s.src, dst := s.dst } = s := by
  cases sp <;> rfl

/-- Settles O34, from what a stored byte leaves at every address of both buffers. -/
theorem bufferWriteStoresOneByte : Obligations.BufferWriteStoresOneByte := by
  intro s sp off b hoff
  rw [runLine_wrb_of_lt b hoff]
  refine ⟨fun hidle => ?_, fun hbusy => by rw [whenIdle_busy s _ hbusy]⟩
  rw [whenIdle_idle s _ hidle]
  refine ⟨_, rfl, ?_, fun sp' a hother => ?_, storeByte_frame s sp off b⟩
  · rw [State.storeByte_byteAt, if_pos ⟨rfl, rfl⟩]
  · rw [State.storeByte_byteAt, if_neg (by rwa [ne_eq, Prod.mk.injEq] at hother)]

/-! ### An accepted operation ends (R261, R330) -/

/-- While `BUSY = 1` a line other than `RESET` changes only `CTRL.IE`, the program, to which it adds no `RESET`, and
the model's record of what was read (R252, R255 to R258). -/
theorem runLine_busy_frame {l : HostLine} (h : runLine l s = .next t) (hbusy : s.status.busy = true)
    (hl : l ≠ .reset) :
    ∃ ie added freeUses results, (∀ l ∈ added, l ≠ HostLine.reset) ∧
      t = { s with ie := ie, host := added ++ s.host, freeUses := freeUses, results := results } := by
  have hnone : ∀ l ∈ ([] : List HostLine), l ≠ .reset := by simp
  cases l with
  | rd r =>
    cases h
    exact ⟨_, [], _, _, hnone, rfl⟩
  | wr r v =>
    by_cases hr : r = .ctrl
    · subst hr
      cases h
      exact ⟨_, [], _, _, hnone, rfl⟩
    · cases (writeReg_busy v hbusy hr).symm.trans h
      exact ⟨_, [], _, _, hnone, rfl⟩
  | rdb sp off =>
    by_cases hoff : off < s.params.capacity sp
    · cases (runLine_rdb_of_lt hoff).symm.trans h
      exact ⟨_, [], _, _, hnone, readByte_busy sp off hbusy⟩
    · cases (runLine_rdb_of_capacity_le (Nat.not_lt.mp hoff)).symm.trans h
  | wrb sp off b =>
    by_cases hoff : off < s.params.capacity sp
    · cases (runLine_wrb_of_lt b hoff).symm.trans h
      exact ⟨_, [], _, _, hnone, whenIdle_busy s _ hbusy⟩
    · cases (runLine_wrb_of_capacity_le b (Nat.not_lt.mp hoff)).symm.trans h
  | reset => exact absurd rfl hl
  | wait =>
    rw [runLine_wait, hbusy] at h
    cases h
    exact ⟨_, [.wait], _, _, by simp, rfl⟩
  | dump =>
    cases h
    exact ⟨_, dumpLines s.dstLen.toNat, _, _, by simp [dumpLines], rfl⟩

/-- An operation is pending, and all that the host has still to do is defined and no `RESET`. -/
structure State.Pending (s : State) : Prop where
  inv : s.Inv
  hostWf : s.hostWf
  busy : s.status.busy = true
  no_reset : ∀ l ∈ s.host, l ≠ .reset

/-- A host's turn uses up one entry of the schedule and leaves the operation pending. -/
theorem State.Pending.step_of_turn_host (hs : s.Pending) (hturn : s.turn = .host) :
    ∃ t, step s = .next t ∧ t.Pending ∧ t.sched = s.sched.tail := by
  obtain ⟨t, ht, hwf⟩ := definedHostStepsNeverStop s hs.inv hs.hostWf
  have hinv : t.Inv := stepKeepsTheInvariant s t hs.inv ht
  obtain ⟨hruns, hwaits⟩ := stepRunsTheHostsNextLine s hturn
  rw [if_pos hs.busy] at hruns hwaits
  refine ⟨t, ht, ?_⟩
  cases hhost : s.host with
  | nil =>
    cases (hwaits hhost).symm.trans ht
    exact ⟨⟨hinv, hwf, hs.busy, hs.no_reset⟩, rfl⟩
  | cons l ls =>
    obtain ⟨hl, hls⟩ := List.forall_mem_cons.mp (hhost ▸ hs.no_reset)
    have hline := (hruns l ls hhost).symm.trans ht
    obtain ⟨ie, added, freeUses, results, hadded, rfl⟩ := runLine_busy_frame hline hs.busy hl
    exact ⟨⟨hinv, hwf, hs.busy, List.forall_mem_append.mpr ⟨hadded, hls⟩⟩, rfl⟩

/-- The engine's turn ends the operation, in one step. -/
theorem run_one_of_turn_engine (hturn : s.turn = .engine) :
    ∃ t, Host.Core.run Sys2Proof.core 1 s = .next t ∧ t.status.busy = false ∧ t.status.done = true := by
  obtain ⟨-, -, hended⟩ := engineTurnCompletesTheOperation s.takeTurn
  exact ⟨_, run_succ_of_step (step_of_turn_engine hturn) 0, hended⟩

/-- A pending operation ends, by induction on the schedule: a host's turn shortens it, and the engine's turn comes at
its end or before. -/
theorem State.Pending.run_ends {sched : List Agent} (hs : s.Pending) (hsched : s.sched = sched) :
    ∃ k t, k ≤ sched.length + 1 ∧ Host.Core.run Sys2Proof.core k s = .next t ∧
      t.status.busy = false ∧ t.status.done = true := by
  induction sched generalizing s with
  | nil =>
    obtain ⟨t, hrun, hended⟩ := run_one_of_turn_engine (turn_eq_engine_iff.mpr ⟨hs.busy, .inl hsched⟩)
    exact ⟨1, t, Nat.le_refl 1, hrun, hended⟩
  | cons a rest ih =>
    cases hturn : s.turn with
    | engine =>
      obtain ⟨t, hrun, hended⟩ := run_one_of_turn_engine hturn
      exact ⟨1, t, Nat.le_add_left 1 _, hrun, hended⟩
    | host =>
      obtain ⟨u, hstep, hu, hrest⟩ := hs.step_of_turn_host hturn
      obtain ⟨k, t, hk, hrun, hended⟩ := ih hu (by rw [hrest, hsched, List.tail_cons])
      exact ⟨k + 1, t, Nat.succ_le_succ hk, (run_succ_of_step hstep k).trans hrun, hended⟩

/-- Settles O28. -/
theorem acceptedOperationEnds : Obligations.AcceptedOperationEnds :=
  fun _ hinv hwf hbusy hreset => State.Pending.run_ends ⟨hinv, hwf, hbusy, hreset⟩ rfl

end Sys2Proof.Machine
end

section
/-! ## Exceptions (60_exceptions.md): the same command after an error, and the interrupt wire -/

namespace Sys2Proof.Machine

variable {s t : State}

/-! ### The same command again (R292) -/

/-- Every command but `CLR` is the start of one operation, the same in every state in which `BUSY = 0` (R250). -/
theorem exec_starts_of_ne_clr {i : Instr} (hi : i ≠ .clr) :
    ∃ op filt, ∀ s : State, s.status.busy = false → exec i s = .next (s.startOperation op filt) := by
  cases i with
  | clr => exact absurd rfl hi
  | encAvg => exact ⟨.enc, .avg, fun _ => exec_encAvg_idle⟩
  | encDir => exact ⟨.enc, .dir, fun _ => exec_encDir_idle⟩
  | dec => exact ⟨.dec, .avg, fun _ => exec_dec_idle⟩

/-- An operation started twice is as if started once: what the start writes does not depend on what was there. -/
theorem startOperation_startOperation (s : State) (op : Op) (filt : Filt) :
    (s.startOperation op filt).startOperation op filt = s.startOperation op filt := rfl

/-- An operation has the same outcome from every state with the same inputs (R17). -/
theorem State.KeepsInputs.startOperation_sameOutcome (h : s.KeepsInputs t) (op : Op) (filt : Filt) :
    SameOutcome (complete (t.startOperation op filt)) (complete (s.startOperation op filt)) :=
  outcomeDependsOnlyOnTheInputs (t.startOperation op filt) (s.startOperation op filt) h.params rfl rfl
    h.width h.height h.srcLen fun a _ _ => by
      rw [State.startOperation_byteAt, State.startOperation_byteAt, h.src]

/-- The operation issued again after its end has the same outcome, since its end leaves the inputs alone (R17, R21). -/
theorem reissue_sameOutcome (s : State) (op : Op) (filt : Filt) :
    SameOutcome (complete ((complete (s.startOperation op filt)).startOperation op filt))
      (complete (s.startOperation op filt)) := by
  have h := (complete_keepsInputs (s.startOperation op filt)).startOperation_sameOutcome op filt
  rwa [startOperation_startOperation] at h

/-- An operation that ends with an error leaves `DST` as it was before the command was issued (R290, R291). -/
theorem startOperation_dst_of_error {op : Op} {filt : Filt}
    (h : (complete (s.startOperation op filt)).status.code ≠ 0) (a : Nat) :
    (complete (s.startOperation op filt)).byteAt .dst a = s.byteAt .dst a := by
  rw [complete_dst_of_error h, State.startOperation_byteAt]

/-- After `complete` the operation has ended, whatever its outcome (R254). -/
theorem complete_ended (s : State) : (complete s).status.busy = false ∧ (complete s).status.done = true := by
  obtain ⟨-, -, hended⟩ := engineTurnCompletesTheOperation s
  exact hended

/-- Settles O22: the second issue has the first one's outcome, so it is an error too, and neither stores a byte. -/
theorem repeatedCommandRepeatsTheError : Obligations.RepeatedCommandRepeatsTheError := by
  intro s t t' i hidle hi ht herror ht'
  obtain ⟨hended, -⟩ := complete_ended t
  obtain ⟨op, filt, hstart⟩ := exec_starts_of_ne_clr hi
  cases (hstart s hidle).symm.trans ht
  cases (hstart _ hended).symm.trans ht'
  have hstatus := (reissue_sameOutcome s op filt).status
  refine ⟨hended, hstatus, fun a => ?_⟩
  rw [startOperation_dst_of_error (hstatus ▸ herror), startOperation_dst_of_error herror]

/-! ### The interrupt wire (R39, R293) -/

theorem irq_of_done (h : s.status.done = true) : irq s = s.ie := by
  rw [irq, h, Bool.and_true]

theorem irq_of_not_done (h : s.status.done = false) : irq s = false := by
  rw [irq, h, Bool.and_false]

/-- `complete` raises the wire where it is enabled, for an error and for a success alike. -/
theorem irq_complete (s : State) : irq (complete s) = s.ie := by
  obtain ⟨-, hdone⟩ := complete_ended s
  rw [irq_of_done hdone, (complete_keepsInputs s).ie]

/-- While idle, `CLR` and the start of an operation alike leave `DONE` at 0 (R250, R251). -/
theorem exec_idle_not_done {i : Instr} (hidle : s.status.busy = false) (h : exec i s = .next t) :
    t.status.done = false := by
  obtain ⟨hbusy, -⟩ | ⟨-, -, rfl⟩ | ⟨-, op, filt, rfl⟩ := exec_cases i s t h
  · exact absurd (hidle.symm.trans hbusy) Bool.false_ne_true
  · rfl
  · rfl

/-- Settles O37, from what each of the named steps leaves in `CTRL.IE` and `STATUS.DONE`. -/
theorem interruptFollowsDoneAndEnable : Obligations.InterruptFollowsDoneAndEnable := by
  intro s
  refine ⟨rfl, irq_complete s, irq_of_not_done rfl, fun t v h => ?ctrl,
    fun hidle => ⟨fun i t h => irq_of_not_done (exec_idle_not_done hidle h), fun w e t hdecode h => ?illegal⟩⟩
  case ctrl =>
    cases h
    rfl
  case illegal =>
    rw [issueCommand_of_decode_error hdecode, whenIdle_idle s _ hidle] at h
    cases h
    exact irq_of_done rfl

end Sys2Proof.Machine
end

section
/-! ## Reset and hazards (70_reset_and_hazards.md): `RESET` in any state, and who owns the buffers while `BUSY = 1` -/

namespace Sys2Proof.Machine

variable {s t : State}

/-! ### `RESET` (R320, R321) -/

/-- Settles O29: the host's turn reads the `RESET` off its program, and `resetBlock` is what that line leaves. -/
theorem resetStepLeavesTheResetValues : Obligations.ResetStepLeavesTheResetValues := by
  intro s ls hturn hhost
  obtain ⟨hruns, -⟩ := stepRunsTheHostsNextLine s hturn
  exact ⟨_, hruns .reset ls hhost, rfl, rfl, rfl, rfl, rfl, rfl, rfl, rfl, rfl, irq_of_not_done rfl, rfl, rfl, rfl,
    rfl, rfl, State.resetBlock_byteAt _⟩

/-! ### What a host line may touch while an operation is pending (R327) -/

/-- Where the result registers are 0 a read of each of them returns 0 (R255). -/
theorem State.resultsClear.readReg_eq_zero (hs : s.resultsClear) {r : Reg}
    (hr : r ∈ [Reg.dstLen, .outW, .outH, .outPad]) : s.readReg r = 0 := by
  obtain ⟨hlen, hw, hh, hpad⟩ := hs
  simp only [List.mem_cons, List.not_mem_nil, or_false] at hr
  obtain rfl | rfl | rfl | rfl := hr
  · exact hlen
  · exact hw
  · exact hh
  · rw [State.readReg, hpad]
    decide

/-- A byte read that gives a next state is one inside its buffer (R65, R260). -/
theorem lt_capacity_of_runLine_rdb {sp : Space} {off : Nat} (h : runLine (.rdb sp off) s = .next t) :
    off < s.params.capacity sp := by
  by_contra hoff
  cases (runLine_rdb_of_capacity_le (Nat.not_lt.mp hoff)).symm.trans h

/-- Settles O36: the frame of a line while `BUSY = 1` leaves all that the operation reads and the result registers,
which the invariant has at 0; the last three clauses are what a write of `CTRL` and the two reads leave. -/
theorem engineOwnsTheBuffersWhileBusy : Obligations.EngineOwnsTheBuffersWhileBusy := by
  intro s t l hinv hbusy hl h
  have hctrl : ∀ v, l = .wr .ctrl v → t.ie = v.getLsbD 0 := by
    rintro v rfl
    cases h
    rfl
  have hread : ∀ r, l = .rd r → t.results = s.readReg r :: s.results := by
    rintro r rfl
    cases h
    rfl
  have hbyte : ∀ sp off, l = .rdb sp off → ∃ b : Byte, t.results = b.setWidth 32 :: s.results := by
    rintro sp off rfl
    obtain ⟨-, hbusyRead⟩ := bufferReadReturnsTheByte s sp off (lt_capacity_of_runLine_rdb h)
    obtain ⟨u, b, hu, rfl⟩ := hbusyRead hbusy
    cases hu.symm.trans h
    exact ⟨b, rfl⟩
  obtain ⟨ie, added, freeUses, results, -, rfl⟩ := runLine_busy_frame h hbusy hl
  have hclear : State.resultsClear { s with ie, host := added ++ s.host, freeUses, results } :=
    hinv.results_clear (.inl hbusy)
  exact ⟨rfl, rfl, rfl, rfl, rfl, rfl, rfl, rfl, rfl, rfl, fun _ hr => hclear.readReg_eq_zero hr, hctrl, hread, hbyte⟩

end Sys2Proof.Machine
end
